-- ==== Sys2Proof/Word.lean ====
section
/-!
DEFINITION. The engine's bit vectors (00_scope.md R11, R12; 20_memory.md R40).

The spec defines a vector as an ordered sequence, most significant bit first, whose length is fixed by the
configuration and not by the machine's text. So a vector is the list of its bits in that order: sequence position
`p` of the spec is list position `p`, bit number `i` of an `L`-bit vector is list position `L - 1 - i`, and the
spec's `x ++ y` is `x ++ y`. Widths that the spec fixes once for all (FCODE, the response word, VARIANT) are `BitVec`s.
-/

namespace Sys2Proof

/-- A bit vector of any width, most significant bit first (R11). -/
abbrev Bits := List Bool

/-- `0^L` (R11). -/
def Bits.zeros (L : Nat) : Bits := List.replicate L false

/-- `val(v)`, the unsigned integer of a vector (R11): the first bit has the highest weight. -/
def Bits.val : Bits → Nat
  | [] => 0
  | b :: v => b.toNat * 2 ^ v.length + Bits.val v

/-- `bits_L(n)` for `n < 2^L` (R11): the `L`-bit vector of value `n`. -/
def Bits.ofNat : Nat → Nat → Bits
  | 0, _ => []
  | L + 1, n => n.testBit L :: Bits.ofNat L n

end Sys2Proof
end

