-- ==== Sys2Proof/Config.lean ====
section
/-!
DEFINITION. The configuration of an instance (00_scope.md R7; 30_encoding.md R62), the MONITOR snapshot
(30_encoding.md R61), the one open parameter MONITOR_TEXT, and the configuration State.reset comes up with.
The functions of a configuration (widths, legality, identity string) are in Machine/Configuration.lean.
-/

namespace Sys2Proof

/-- The eight indexing topologies, in the source's table order (R1, R62). -/
inductive Variant where
  | GAg | GAp | PAg | PAp | PAs | SAg | SAp | SAs
deriving DecidableEq, Repr

/-- CFG (10_state.md R18): fixed by reset and read-only afterwards. `k` and `hashMode` are held only where the
variant takes them. The mode codes are naturals: 0 is XOR, 0 is SATURATING, every other code is unsupported (R62). -/
structure Cfg where
  variant   : Variant
  n         : Nat
  h         : Nat
  s         : Nat
  k         : Option Nat
  hashMode  : Option Nat
  countMode : Nat
deriving DecidableEq, Repr

/-- A configuration as a reset presents it (R62): VARIANT as its 3-bit code, everything else as naturals. -/
structure CfgInput where
  variant   : BitVec 3
  n         : Nat
  h         : Nat
  s         : Nat
  k         : Nat
  hashMode  : Nat
  countMode : Nat
deriving DecidableEq, Repr

/-- What MONITOR answers beside the response word (30_encoding.md R61; 42_operations.md R119). `bhr` is shown by GAg
and GAp only. The two lists hold every present key, in ascending key order. -/
structure Snapshot where
  cfg   : Cfg
  bhr   : Option Bits
  bank  : List (Bits × Bits)
  pht   : List (Bits × Bits)
  ctr   : Bits
  pend  : Bool
  paddr : Bits
  fault : Bool
  fcode : BitVec 3
  fcmd  : Bits
deriving DecidableEq, Repr

/-- MONITOR_TEXT : Snapshot -> text, open in the spec (R61, 92_eei_decisions.md D16). A constant with no body: nothing
is known of it, and no definition of the machine depends on it. Safe. See notes/assumptions/10.md. -/
opaque Config.monitorText : Snapshot → String

/-- DESIGN CHOICE (notes/assumptions/4.md): the configuration `State.reset` comes up with, the spec's own example of a
configured instance, BPE-SAs-N4-H1-S2-K2-XOR-SAT (00_scope.md R2). The spec makes the configuration an input of reset
(70_reset_and_hazards.md R143). Unsafe where a statement would rest on it; every other configuration is reached by a
reset input. VARIANT's code 111 is SAs (R62). -/
def Config.initial : CfgInput :=
  { variant := 0b111#3, n := 4, h := 1, s := 2, k := 2, hashMode := 0, countMode := 0 }

end Sys2Proof
end

