-- ==== Sys2Proof/Syntax.lean ====
section
/-!
DEFINITION. The engine's commands: one constructor per row of spec/opcode_table.json (00_scope.md R3;
30_encoding.md R54). An address operand is the vector `addr` of the command word, used as it stands (R52).
-/

namespace Sys2Proof

/-- The actual outcome of a branch (00_scope.md R13). -/
inductive BranchResult where
  | taken
  | notTaken
deriving DecidableEq, Repr

/-- `bit(r)`: 1 if TAKEN, 0 if NOT_TAKEN (R13, R53). -/
def BranchResult.bit : BranchResult → Bool
  | .taken => true
  | .notTaken => false

/-- The three commands (R3, R54). -/
inductive Instr where
  /-- PREDICT a (42_operations.md R109). -/
  | predict (addr : Bits)
  /-- UPDATE a, r (42_operations.md R114). -/
  | update (addr : Bits) (actual : BranchResult)
  /-- MONITOR (42_operations.md R119). -/
  | monitor
deriving DecidableEq, Repr

end Sys2Proof
end

