-- ==== Sys2Proof/WellFormed.lean ====
section
/-!
DEFINITION. Which instruction terms stand for a command word of an engine with N-bit addresses: those whose address
operand has exactly N bits (00_scope.md R10; 30_encoding.md R52).
-/

namespace Sys2Proof

/-- The address operand has exactly `n` bits; MONITOR has none (R52). -/
def Instr.wf (n : Nat) : Instr → Bool
  | .predict a => a.length == n
  | .update a _ => a.length == n
  | .monitor => true

end Sys2Proof
end

