-- ==== Sys2Proof/Decode.lean ====
section
/-!
DEFINITION. The command word of W = N + 3 bits (30_encoding.md R51 to R57, R65): its decoder, total on any vector
and rejecting by name, its encoder, and the two fixed entry points over numbers.
-/

namespace Sys2Proof

/-- Why a word is ILLEGAL (30_encoding.md R55 to R57). All of them raise ILLEGAL_COMMAND (60_exceptions.md R129). -/
inductive IllegalWord where
  /-- `op = 11`, whatever the other bits (R56). -/
  | reservedOp
  /-- `op = 00` with `t = 1` (R57). -/
  | predictOutcomeBit
  /-- `op = 10` with `t = 1` or `addr` other than `0^N` (R57). -/
  | monitorReservedField
deriving DecidableEq, Repr

/-- What the decoder answers: an instruction, or a rejection by name. -/
inductive Decoded where
  | instr (i : Instr)
  | illegal (why : IllegalWord)
  /-- The vector is not N + 3 bits wide: no such word can be presented (R52, R65). -/
  | wrongWidth
deriving DecidableEq, Repr

/-- `addr = cmd[N+2:3]` (R51): the first N bits. -/
def Command.addr (n : Nat) (cmd : Bits) : Bits := cmd.take n

/-- Decode of 30_encoding.md R55. `t = cmd[2]` and `op = cmd[1:0]` are the last three bits (R51). -/
def decode (n : Nat) (cmd : Bits) : Decoded :=
  if cmd.length = n + 3 then
    match cmd.drop n with
    | [false, false, false] => .instr (.predict (Command.addr n cmd))
    | [true, false, false] => .illegal .predictOutcomeBit
    | [true, false, true] => .instr (.update (Command.addr n cmd) .taken)
    | [false, false, true] => .instr (.update (Command.addr n cmd) .notTaken)
    | [t, true, false] =>
      if t = false ∧ Command.addr n cmd = Bits.zeros n then .instr .monitor else .illegal .monitorReservedField
    | [_, true, true] => .illegal .reservedOp
    | _ => .wrongWidth
  else .wrongWidth

/-- The command word of an instruction, `addr ++ t ++ op` (R51, R53, R54). MONITOR's reserved fields are zero (R57). -/
def encode (n : Nat) : Instr → Bits
  | .predict a => a ++ [false, false, false]
  | .update a r => a ++ [r.bit, false, true]
  | .monitor => Bits.zeros n ++ [false, true, false]

/-- The vector that a number of `nbits` bits stands for on the command input of an engine with N-bit addresses: the
(N+3)-bit word of that value. `nbits` is a whole number of bytes, so it can exceed N + 3: where a bit above the word is
set, the number is no command word, and the vector keeps all `nbits` bits, a width the decoder rejects. -/
def tableWord (n nbits w : Nat) : Bits :=
  if w % 2 ^ nbits < 2 ^ (n + 3) then Bits.ofNat (n + 3) (w % 2 ^ nbits) else Bits.ofNat nbits w

/-- The instruction the decoder reads from a number of the opcode table, for the address width `State.reset` comes up
with (notes/assumptions/12.md). -/
def decodeTableWord (nbits w : Nat) : Option Instr :=
  match decode Config.initial.n (tableWord Config.initial.n nbits w) with
  | .instr i => some i
  | _ => none

end Sys2Proof
end

