-- ==== Sys2Proof/Machine/Configuration.lean ====
section
/-!
DEFINITION. Functions of a configuration: the variant codes, what a variant takes, the derived widths, legality and
the identity string (00_scope.md R2, R7 to R9; 30_encoding.md R62; 60_exceptions.md R128).
-/

namespace Sys2Proof

/-- The 3-bit code of a variant (30_encoding.md R62). -/
def Variant.code : Variant → BitVec 3
  | .GAg => 0b000#3
  | .GAp => 0b001#3
  | .PAg => 0b010#3
  | .PAp => 0b011#3
  | .PAs => 0b100#3
  | .SAg => 0b101#3
  | .SAp => 0b110#3
  | .SAs => 0b111#3

/-- The variant of a 3-bit code (R62). Every code is one of the eight, so condition 5 of 60_exceptions.md R128 cannot
hold. -/
def Variant.ofCode (c : BitVec 3) : Variant :=
  match c.toNat with
  | 0 => .GAg
  | 1 => .GAp
  | 2 => .PAg
  | 3 => .PAp
  | 4 => .PAs
  | 5 => .SAg
  | 6 => .SAp
  | _ => .SAs

/-- BANKED (00_scope.md R9): a bank of history registers, not the one global register. -/
def Variant.banked : Variant → Bool
  | .GAg | .GAp => false
  | .PAg | .PAp | .PAs | .SAg | .SAp | .SAs => true

/-- The variants whose history register is selected by the hashed set (00_scope.md R6, R7). -/
def Variant.hashed : Variant → Bool
  | .SAg | .SAp | .SAs => true
  | .GAg | .GAp | .PAg | .PAp | .PAs => false

/-- The variants that take K (R7; 92_eei_decisions.md D4). -/
def Variant.takesK : Variant → Bool
  | .PAs | .SAg | .SAp | .SAs => true
  | .GAg | .GAp | .PAg | .PAp => false

/-- The name of a variant. -/
def Variant.name : Variant → String
  | .GAg => "GAg"
  | .GAp => "GAp"
  | .PAg => "PAg"
  | .PAp => "PAp"
  | .PAs => "PAs"
  | .SAg => "SAg"
  | .SAp => "SAp"
  | .SAs => "SAs"

/-- CFG of a presented configuration: K and HASH_MODE are held where the variant takes them (10_state.md R18;
notes/assumptions/8.md). -/
def Cfg.ofInput (c : CfgInput) : Cfg :=
  let v := Variant.ofCode c.variant
  { variant := v, n := c.n, h := c.h, s := c.s,
    k := if v.takesK then some c.k else none,
    hashMode := if v.hashed then some c.hashMode else none,
    countMode := c.countMode }

/-- K of a configuration; 0 where the variant takes none, and then no rule reads it. -/
def Cfg.setWidth (c : Cfg) : Nat := c.k.getD 0

/-- BK, the width of a bank key (00_scope.md R9); 0 where there is no bank. -/
def Cfg.bankKeyWidth (c : Cfg) : Nat :=
  match c.variant with
  | .GAg | .GAp => 0
  | .PAg | .PAp | .PAs => c.n
  | .SAg | .SAp | .SAs => c.setWidth

/-- KP, the width of a PHT key (00_scope.md R9). -/
def Cfg.phtKeyWidth (c : Cfg) : Nat :=
  match c.variant with
  | .GAg | .PAg | .PAs | .SAg => c.h
  | .GAp | .PAp | .SAp => c.n + c.h
  | .SAs => c.setWidth + c.h

/-- The width of BHR: H where the variant has one, 0 where it has a bank instead (10_state.md R21, R27). -/
def Cfg.bhrWidth (c : Cfg) : Nat := if c.variant.banked then 0 else c.h

/-- W, the width of a command word (30_encoding.md R51). -/
def Cfg.wordWidth (c : Cfg) : Nat := c.n + 3

/-- ConfigIllegal (60_exceptions.md R128, conditions 1 to 4; 5 cannot hold). -/
def Cfg.illegal (c : Cfg) : Bool :=
  (c.n == 0 || c.h == 0 || c.s == 0)
  || (c.variant.takesK && (c.setWidth == 0 || decide (c.n < c.setWidth)))
  || (c.variant.hashed && c.hashMode != some 0)
  || c.countMode != 0

/-- CFG holds K and HASH_MODE exactly where the variant takes them (10_state.md R18). -/
def Cfg.wf (c : Cfg) : Bool :=
  c.k.isSome == c.variant.takesK && c.hashMode.isSome == c.variant.hashed

/-- The identity string BPE-<VARIANT>-N<N>-H<H>-S<S>[-K<K>][-XOR]-SAT (00_scope.md R2). -/
def Cfg.name (c : Cfg) : String :=
  "BPE-" ++ c.variant.name ++ "-N" ++ toString c.n ++ "-H" ++ toString c.h ++ "-S" ++ toString c.s
    ++ (if c.variant.takesK then "-K" ++ toString c.setWidth else "")
    ++ (if c.variant.hashed then "-XOR" else "") ++ "-SAT"

end Sys2Proof
end

