-- ==== Sys2Proof/Machine/State.lean ====
section
/-!
DEFINITION. The state of one instance (10_state.md R17 to R36), the reasons a step can stop, the responses
(30_encoding.md R58 to R61), the inputs a host presents (70_reset_and_hazards.md R155), reset (R143 to R145), and the
named updates every operation writes the state through.
-/

namespace Sys2Proof.Machine

/-- A key-addressed space as plain data: its present (key, value) pairs. Absent keys are not listed; a present zero is
listed (10_state.md R36). The canonical form, keys strictly rising in value, is `Table.wf` of Machine/Ops.lean. -/
abbrev Table := List (Bits × Bits)

/-- The engine's own faults (60_exceptions.md R125, R126). None of them stops the model: raising one is a next state
with FAULT = 1 (R127). -/
inductive EngineFault where
  | configError
  | illegalCommand
  | protocolViolation
  | lengthMismatch
  | undefinedEntry
deriving DecidableEq, Repr

/-- What the engine answers to one command: the 7-bit response word (30_encoding.md R59) and, from MONITOR, the
snapshot (R61). -/
structure Response where
  word     : BitVec 7
  snapshot : Option Snapshot
deriving DecidableEq, Repr

/-- The text of a MONITOR response: the open rendering MONITOR_TEXT of its snapshot (R61). -/
def Response.text (r : Response) : Option String := r.snapshot.map Config.monitorText

/-- What a host can send (70_reset_and_hazards.md R155): a command word, or a reset with a configuration. -/
inductive Input where
  | command (word : Bits)
  | reset (cfg : CfgInput)
deriving DecidableEq, Repr

/-- The state (10_state.md R17). The last two fields are the model's own: what the host has presented and the engine
has not accepted yet, and what it has answered since the last reset (notes/assumptions/2.md and 3.md). -/
structure State where
  /-- CFG (R18). -/
  cfg    : Cfg
  /-- BHR, the global history register of GAg and GAp (R21); the 0-bit vector in the other variants. -/
  bhr    : Bits
  /-- BANK, the history bank of the other six variants (R22); empty in GAg and GAp. -/
  bank   : Table
  /-- PHT, the prediction history table (R24). -/
  pht    : Table
  /-- CTR, the working counter register (R26). -/
  ctr    : Bits
  /-- PEND (R31). -/
  pend   : Bool
  /-- PADDR (R32). -/
  paddr  : Bits
  /-- FAULT (R29). -/
  fault  : Bool
  /-- FCODE (R30). -/
  fcode  : BitVec 3
  /-- FCMD (R33). -/
  fcmd   : Bits
  /-- The inputs presented and not accepted yet, the next one first. -/
  input  : List Input
  /-- The responses given since the last reset, oldest first (R58; 70_reset_and_hazards.md R154). -/
  output : List Response
deriving DecidableEq, Repr

/-- Why the machine stops. No fault of the spec is here: those are next states (60_exceptions.md R127). -/
inductive Fault where
  /-- Raised by `step` where the next command on the input is not N + 3 bits wide. The spec says that no such word can
  be presented (30_encoding.md R52, R65). Safe: the model claims nothing of it. See notes/assumptions/6.md. -/
  | wordWidth
deriving DecidableEq, Repr

/-- Why an instruction has no meaning. -/
inductive Refusal where
  /-- Raised by `exec` for an instruction that has no meaning yet. No arm does. Safe. -/
  | notModelled (mnemonic : String)
  /-- Raised by PREDICT and UPDATE for an instruction term whose address is not N bits wide; no command word decodes to
  one (30_encoding.md R52). Safe: the model claims nothing of it. See notes/assumptions/7.md. -/
  | operandWidth
deriving DecidableEq, Repr

/-- The answer of a step. -/
abbrev Result := Host.Outcome State Fault Refusal

/-- Reset(cfg) of 70_reset_and_hazards.md R145, with the values of 10_state.md R35; an illegal configuration comes up in
the fault state with CONFIG_ERROR, FCODE = 001 (R144). Nothing of an earlier state is kept (R143). -/
def State.resetWith (c : Cfg) : State :=
  { cfg := c
    bhr := Bits.zeros c.bhrWidth
    bank := []
    pht := []
    ctr := Bits.zeros c.s
    pend := false
    paddr := Bits.zeros c.n
    fault := c.illegal
    fcode := if c.illegal then 0b001#3 else 0b000#3
    fcmd := Bits.zeros c.wordWidth
    input := []
    output := [] }

/-- The machine right after reset: Reset with the configuration of notes/assumptions/4.md, and nothing presented. -/
def State.reset : State := State.resetWith (Cfg.ofInput Config.initial)

/-! Named updates. Each writes the fields its name says and nothing else. -/

/-- Write BHR. -/
def State.setBhr (s : State) (v : Bits) : State := { s with bhr := v }

/-- Write BANK. -/
def State.setBank (s : State) (t : Table) : State := { s with bank := t }

/-- Write PHT. -/
def State.setPht (s : State) (t : Table) : State := { s with pht := t }

/-- Write CTR. -/
def State.setCtr (s : State) (v : Bits) : State := { s with ctr := v }

/-- Write PEND. -/
def State.setPend (s : State) (b : Bool) : State := { s with pend := b }

/-- Write PADDR. -/
def State.setPaddr (s : State) (a : Bits) : State := { s with paddr := a }

/-- Write the fault record FAULT, FCODE, FCMD: FAULT goes to 1 (60_exceptions.md R127). -/
def State.setFault (s : State) (code : BitVec 3) (word : Bits) : State :=
  { s with fault := true, fcode := code, fcmd := word }

/-- Replace what is presented on the input. -/
def State.setInput (s : State) (l : List Input) : State := { s with input := l }

/-- Give a response. -/
def State.emit (s : State) (r : Response) : State := { s with output := s.output ++ [r] }

/-- The state of R17 alone, without the model's input and output: two states are the same engine state when these are
equal. -/
def State.engine (s : State) : State := { s with input := [], output := [] }

end Sys2Proof.Machine
end

