-- ==== Sys2Proof/Machine/Flags.lean ====
section
/-!
DEFINITION. The flag-like values: the engine has no condition codes (10_state.md R28); what it has is the fault codes
(60_exceptions.md R126), the prediction bit of a counter (40_primitives.md R80) and the response word that carries
PRED, PEND, FAULT, FCODE and REFUSED (30_encoding.md R59).
-/

namespace Sys2Proof.Machine

/-- The code of a fault (R126). 000 is no fault; 110 and 111 are never written. -/
def EngineFault.code : EngineFault → BitVec 3
  | .configError => 0b001#3
  | .illegalCommand => 0b010#3
  | .protocolViolation => 0b011#3
  | .lengthMismatch => 0b100#3
  | .undefinedEntry => 0b101#3

/-- Pred(c) = c[S-1], true for TAKEN (R80). For S = 0 see notes/assumptions/14.md. -/
def predictionBit (c : Bits) : Bool := c.headD false

/-- The response word (R59): resp[6] REFUSED, resp[5:3] FCODE, resp[2] FAULT, resp[1] PEND, resp[0] PRED. -/
def responseWord (pred pend fault : Bool) (fcode : BitVec 3) (refused : Bool) : BitVec 7 :=
  BitVec.ofBool refused ++ fcode ++ BitVec.ofBool fault ++ BitVec.ofBool pend ++ BitVec.ofBool pred

/-- resp[0], PRED. -/
def Response.pred (r : Response) : Bool := r.word.getLsbD 0

/-- resp[1], PEND. -/
def Response.pend (r : Response) : Bool := r.word.getLsbD 1

/-- resp[2], FAULT. -/
def Response.fault (r : Response) : Bool := r.word.getLsbD 2

/-- resp[5:3], FCODE. -/
def Response.fcode (r : Response) : BitVec 3 := r.word.extractLsb' 3 3

/-- resp[6], REFUSED. -/
def Response.refused (r : Response) : Bool := r.word.getLsbD 6

end Sys2Proof.Machine
end

