-- ==== Sys2Proof/Machine/Ops.lean ====
section
/-!
DEFINITION. The shared operations: the primitives of 40_primitives.md (shift register, projection, history bank,
saturating counter, hash, history table) and what every command shares, answering, faulting and being refused
(42_operations.md R108; 60_exceptions.md R127, R131, R132). A primitive that can fault answers in `Except EngineFault`.
-/

namespace Sys2Proof.Machine

/-! Shift registers (R68 to R72). -/

/-- The content after SR.insert(b) (R70): every bit one place toward the most significant end, the most significant
discarded, `b` least significant. A 0-bit register (only an illegal configuration sizes one) keeps its length
(notes/assumptions/14.md). -/
def srInsert (b : Bool) : Bits → Bits
  | [] => []
  | _ :: v => v ++ [b]

/-- The content after SR.load(v) of an `L`-bit register (R69); LENGTH_MISMATCH on another width. -/
def srLoad (L : Nat) (v : Bits) : Except EngineFault Bits :=
  if v.length = L then .ok v else .error .lengthMismatch

/-! Counters (R78 to R81). -/

/-- Sat(c, b): one step toward `b`, clamping at `2^S - 1` and at 0 (R79). -/
def sat (c : Bits) (b : Bool) : Bits :=
  if b then (if c.val = 2 ^ c.length - 1 then c else Bits.ofNat c.length (c.val + 1))
  else (if c.val = 0 then c else Bits.ofNat c.length (c.val - 1))

/-! Projection and hash (R73, R82). -/

/-- Proj_W(a), the `W` low-order bits (R73). -/
def proj (W : Nat) (a : Bits) : Bits := a.drop (a.length - W)

/-- The loop of Hash (R82) from address position `p` on: the bit at position `p` is XORed into output position
`p mod K` of the accumulator `h`. -/
def hashFrom (K : Nat) : Nat → Bits → Bits → Bits
  | _, h, [] => h
  | p, h, b :: a => hashFrom K (p + 1) (h.modify (p % K) (fun x => xor x b)) a

/-- Hash(a), the XOR-fold of an address to `K` bits, accumulator from `0^K` (R82). For K = 0 see notes/assumptions/14.md. -/
def hashFold (K : Nat) (a : Bits) : Bits := hashFrom K 0 (Bits.zeros K) a

/-! Tables: the form BANK and PHT are held in (R74 to R77, R84 to R88). -/

/-- The value at a key, `none` where absent. -/
def Table.get (k : Bits) : Table → Option Bits
  | [] => none
  | (k', v) :: t => if k = k' then some v else Table.get k t

/-- Write a key: overwrite it if present, else insert it in ascending order of value. -/
def Table.put (k v : Bits) : Table → Table
  | [] => [(k, v)]
  | (k', v') :: t =>
    if k = k' then (k, v) :: t
    else if k.val < k'.val then (k, v) :: (k', v') :: t
    else (k', v') :: Table.put k v t

/-- Write a key only if it is absent. -/
def Table.ensure (k v : Bits) (t : Table) : Table :=
  match Table.get k t with
  | none => Table.put k v t
  | some _ => t

/-- The keys of a table. -/
def Table.keys (t : Table) : List Bits := t.map Prod.fst

/-- The canonical form: keys strictly rising in value (so at most one entry a key, R77, R84), every key `kw` and every
value `vw` bits wide. -/
def Table.wf (kw vw : Nat) (t : Table) : Bool :=
  t.all (fun e => e.1.length == kw && e.2.length == vw)
  && decide ((Table.keys t).Pairwise (fun a b => a.val < b.val))

/-! The history bank (R74 to R77). -/

/-- BankRead(k): the register of key `k`, created at `0^H` first if absent (R74). -/
def bankRead (k : Bits) (s : State) : Bits × State :=
  match Table.get k s.bank with
  | some v => (v, s)
  | none => (Bits.zeros s.cfg.h, s.setBank (Table.put k (Bits.zeros s.cfg.h) s.bank))

/-- BankInsert(k, b): shift-insert `b` into the register of key `k`, created at `0^H` first if absent (R75). -/
def bankInsert (k : Bits) (b : Bool) (s : State) : State :=
  let r := bankRead k s
  r.2.setBank (Table.put k (srInsert b r.1) r.2.bank)

/-- BankWrite(k, v): load `v` into the register of key `k` (R76). No command uses it. -/
def bankWrite (k v : Bits) (s : State) : Except EngineFault State :=
  if v.length = s.cfg.h then .ok (s.setBank (Table.put k v s.bank)) else .error .lengthMismatch

/-! The history table (R84 to R89). -/

/-- PhtEnsure(k), the source's putIfAbsent(k, 0^S) (R86). -/
def phtEnsure (k : Bits) (s : State) : State :=
  s.setPht (Table.ensure k (Bits.zeros s.cfg.s) s.pht)

/-- PhtGet(k) (R87): UNDEFINED_ENTRY where absent. DEDUCED (notes/assumptions/9.md): a key of another width than KP is a
LENGTH_MISMATCH (60_exceptions.md R125). -/
def phtGet (k : Bits) (s : State) : Except EngineFault Bits :=
  if k.length = s.cfg.phtKeyWidth then
    match Table.get k s.pht with
    | some v => .ok v
    | none => .error .undefinedEntry
  else .error .lengthMismatch

/-- PhtPut(k, v) (R88): LENGTH_MISMATCH on a value of another width than S, and (DEDUCED, notes/assumptions/9.md) on a
key of another width than KP (60_exceptions.md R125). -/
def phtPut (k v : Bits) (s : State) : Except EngineFault State :=
  if k.length = s.cfg.phtKeyWidth ∧ v.length = s.cfg.s then .ok (s.setPht (Table.put k v s.pht))
  else .error .lengthMismatch

/-- CTR.load(v) (R69, R109). -/
def ctrLoad (v : Bits) (s : State) : Except EngineFault State :=
  match srLoad s.cfg.s v with
  | .ok v' => .ok (s.setCtr v')
  | .error f => .error f

/-- The form every state's storage has: BANK and PHT are canonical tables of the configuration's widths, and a variant
without a bank has none (00_scope.md R9; 10_state.md R22, R24, R27). -/
def Memory.wf (s : State) : Bool :=
  Table.wf s.cfg.bankKeyWidth s.cfg.h s.bank
  && (s.cfg.variant.banked || s.bank.isEmpty)
  && Table.wf s.cfg.phtKeyWidth s.cfg.s s.pht

/-! What every command shares. -/

/-- Give a response with the state's own PEND, FAULT and FCODE (30_encoding.md R59). -/
def respond (pred refused : Bool) (snap : Option Snapshot) (s : State) : State :=
  s.emit { word := responseWord pred s.pend s.fault s.fcode refused, snapshot := snap }

/-- raise F during the command `word` (60_exceptions.md R127), on the state the command found: FAULT, FCODE and FCMD are
written, nothing else (R131), and the response reports the fault. This is the engine's whole trap entry (R136). There is
no return from it (R137): only reset leaves the fault state. -/
def raiseFault (f : EngineFault) (word : Bits) (s : State) : State :=
  respond false false none (s.setFault f.code word)

/-- A command refused in the fault state: no state change, REFUSED = 1 (R132). -/
def refuse (s : State) : State := respond false true none s

/-- One command in the frame of Execute (42_operations.md R108): refused where FAULT = 1; else its body runs, and either
completes with its PRED bit or raises, which discards every write of the body (R15, R127). -/
def runCommand (word : Bits) (body : State → Except EngineFault (State × Bool)) (s : State) : State :=
  if s.fault then refuse s
  else
    match body s with
    | .ok (t, pred) => respond pred false none t
    | .error f => raiseFault f word s

/-- Accept a reset input: Reset with the presented configuration (70_reset_and_hazards.md R143, R145). What the host
presents after it stays presented. -/
def acceptReset (c : CfgInput) (rest : List Input) : State :=
  (State.resetWith (Cfg.ofInput c)).setInput rest

end Sys2Proof.Machine
end

