-- ==== Sys2Proof/Machine/Monitor.lean ====
section
/-!
DEFINITION. MONITOR (42_operations.md R118 to R120).
-/

namespace Sys2Proof.Machine

/-- The snapshot of a state (R119; 30_encoding.md R61). The tables are held in ascending key order, present keys only,
so they are the lists the snapshot asks for. -/
def snapshotOf (s : State) : Snapshot :=
  { cfg := s.cfg
    bhr := if s.cfg.variant.banked then none else some s.bhr
    bank := s.bank
    pht := s.pht
    ctr := s.ctr
    pend := s.pend
    paddr := s.paddr
    fault := s.fault
    fcode := s.fcode
    fcmd := s.fcmd }

/-- MONITOR: allowed in every state, the fault state too (R118), never refused, writes no state. -/
def execMonitor (s : State) : Result :=
  .next (respond false false (some (snapshotOf s)) s)

end Sys2Proof.Machine
end

