-- ==== Sys2Proof/Machine/Operands.lean ====
section
/-!
DEFINITION. The indexer of the eight variants (41_indexing.md R91 to R107): how a command's address operand, with the
current history, names a history register and a prediction-table entry.
-/

namespace Sys2Proof.Machine

/-- HistKey(a), the bank key of the history register that feeds the index (R92). GAg and GAp have none, and no rule
reads it there (R91). -/
def histKey (c : Cfg) (a : Bits) : Bits :=
  match c.variant with
  | .GAg | .GAp => []
  | .PAg | .PAp | .PAs => proj c.n a
  | .SAg | .SAp | .SAs => hashFold c.setWidth a

/-- The key Index(a) forms from the address and the history value `h` (R92). -/
def indexKey (c : Cfg) (a h : Bits) : Bits :=
  match c.variant with
  | .GAg | .PAg | .PAs | .SAg => h
  | .GAp | .PAp | .SAp => a ++ h
  | .SAs => hashFold c.setWidth a ++ h

/-- A history register (R93). -/
inductive HistReg where
  | bhr
  | bank (key : Bits)
deriving DecidableEq, Repr

/-- HistSel(a), the history register that feeds Index(a) and that UPDATE shifts (R93). -/
def histSel (c : Cfg) (a : Bits) : HistReg :=
  if c.variant.banked then .bank (histKey c a) else .bhr

/-- Read a history register; a bank register materializes at `0^H` if absent (40_primitives.md R71, R74). -/
def readHist : HistReg → State → Bits × State
  | .bhr, s => (s.bhr, s)
  | .bank k, s => bankRead k s

/-- Shift a bit into a history register (40_primitives.md R70, R75). -/
def insertHist (b : Bool) : HistReg → State → State
  | .bhr, s => s.setBhr (srInsert b s.bhr)
  | .bank k, s => bankInsert k b s

/-- HistVal(a) (R92). -/
def histVal (a : Bits) (s : State) : Bits × State := readHist (histSel s.cfg a) s

/-- Index(a) (R92): the KP-bit key, and the state with the bank register it read present. -/
def index (a : Bits) (s : State) : Bits × State :=
  let r := histVal a s
  (indexKey s.cfg a r.1, r.2)

end Sys2Proof.Machine
end

