-- ==== Sys2Proof/Machine/Predict.lean ====
section
/-!
DEFINITION. PREDICT (42_operations.md R109 to R112).
-/

namespace Sys2Proof.Machine

/-- The steps of Predict(a) in the order of R109. Answers the prediction bit. -/
def predictBody (a : Bits) (s : State) : Except EngineFault (State × Bool) :=
  if s.pend then .error .protocolViolation
  else
    let r := index a s
    let s₂ := phtEnsure r.1 r.2
    match phtGet r.1 s₂ with
    | .error f => .error f
    | .ok c =>
      match ctrLoad c s₂ with
      | .error f => .error f
      | .ok s₃ =>
        let s₄ := (s₃.setPend true).setPaddr a
        .ok (s₄, predictionBit s₄.ctr)

/-- PREDICT a. An address of another width than N cannot be presented (30_encoding.md R52; notes/assumptions/7.md). -/
def execPredict (a : Bits) (s : State) : Result :=
  if a.length = s.cfg.n then .next (runCommand (encode s.cfg.n (.predict a)) (predictBody a) s)
  else .refused .operandWidth

end Sys2Proof.Machine
end

