-- ==== Sys2Proof/Machine/Update.lean ====
section
/-!
DEFINITION. UPDATE (42_operations.md R113 to R117).
-/

namespace Sys2Proof.Machine

/-- The steps of Update(a, r) in the order of R113 and R114: the index is computed on the pre-shift history. UPDATE
answers PRED = 0 (30_encoding.md R59). -/
def updateBody (a : Bits) (r : BranchResult) (s : State) : Except EngineFault (State × Bool) :=
  if s.pend = false ∨ s.paddr ≠ a then .error .protocolViolation
  else
    let k := index a s
    let s₂ := k.2.setCtr (sat k.2.ctr r.bit)
    match phtPut k.1 s₂.ctr s₂ with
    | .error f => .error f
    | .ok s₃ => .ok ((insertHist r.bit (histSel s.cfg a) s₃).setPend false, false)

/-- UPDATE a, r. An address of another width than N cannot be presented (30_encoding.md R52; notes/assumptions/7.md). -/
def execUpdate (a : Bits) (r : BranchResult) (s : State) : Result :=
  if a.length = s.cfg.n then .next (runCommand (encode s.cfg.n (.update a r)) (updateBody a r) s)
  else .refused .operandWidth

end Sys2Proof.Machine
end

