-- ==== Sys2Proof/Machine/Dispatch.lean ====
section
/-!
DEFINITION. One arm per command (42_operations.md R108).
-/

namespace Sys2Proof.Machine

def exec (i : Instr) (s : State) : Host.Outcome State Fault Refusal :=
  match i with
  | .predict a => Sys2Proof.Machine.execPredict a s
  | .update a r => Sys2Proof.Machine.execUpdate a r s
  | .monitor => Sys2Proof.Machine.execMonitor s

end Sys2Proof.Machine
end

