-- ==== Sys2Proof/Machine/Illegal.lean ====
section
/-!
DEFINITION. A word no command encodes (30_encoding.md R55 to R57): ILLEGAL_COMMAND (60_exceptions.md R129).
-/

namespace Sys2Proof.Machine

/-- Execute an ILLEGAL word: refused where FAULT = 1, else ILLEGAL_COMMAND with the whole word in FCMD (42_operations.md
R108; 60_exceptions.md R129, R132, R135). -/
def execIllegal (word : Bits) (s : State) : State :=
  runCommand word (fun _ => .error .illegalCommand) s

end Sys2Proof.Machine
end

