-- ==== Sys2Proof/Machine/Accept.lean ====
section
/-!
DEFINITION. What the engine does with the next input the host presents (42_operations.md R108;
70_reset_and_hazards.md R143, R155; 20_memory.md R44).
-/

namespace Sys2Proof.Machine

/-- Execute(cmd) (42_operations.md R108): decode, then the command's own meaning; the fault state's refusals are in the
meanings. A vector that is no N+3-bit word cannot be presented (30_encoding.md R52; notes/assumptions/6.md). -/
def execute (word : Bits) (s : State) : Result :=
  match decode s.cfg.n word with
  | .instr i => exec i s
  | .illegal _ => .next (execIllegal word s)
  | .wrongWidth => .fault .wordWidth

/-- Accept the next input. With nothing presented the engine keeps its state (60_exceptions.md R142;
notes/assumptions/5.md). -/
def acceptNext (s : State) : Result :=
  match s.input with
  | [] => .next s
  | .command word :: rest => execute word (s.setInput rest)
  | .reset c :: rest => .next (acceptReset c rest)

/-- Put a command word first on the input. -/
def presentFirst (word : Bits) (s : State) : State := s.setInput (.command word :: s.input)

end Sys2Proof.Machine
end

