-- ==== Sys2Proof/Machine/Step.lean ====
section
/-!
DEFINITION. One step of the machine, and the placing of one command word where the next step takes it.
-/

namespace Sys2Proof.Machine

/-- One step: accept and complete the next input (20_memory.md R43, R44). -/
def step (s : State) : Host.Outcome State Fault Refusal := acceptNext s

/-- `s` with the command word that the number stands for presented first (notes/assumptions/2.md, 12.md). -/
def State.withFetchWord (s : State) (nbits w : Nat) : State := presentFirst (tableWord s.cfg.n nbits w) s

end Sys2Proof.Machine
end

