-- ==== Sys2Proof/Machine/Assembler.lean ====
section
/-!
DEFINITION. The textual form of commands, beside the machine (30_encoding.md R63, R64): lines of text to instructions.
The lexical details the spec does not give are DESIGN CHOICEs of notes/assumptions/13.md.
-/

namespace Sys2Proof.Machine

/-- A line of assembler text (R63, R64). An address literal is held as its value. -/
inductive AsmLine where
  | predict (addr : Nat)
  | update (addr : Nat) (actual : BranchResult)
  | monitor
  /-- The one pseudo-instruction, a predict then an update (R64). -/
  | step (addr : Nat) (actual : BranchResult)
  /-- Nothing but white space and a comment. -/
  | blank
deriving DecidableEq, Repr

/-- The value of one digit in base 2 or 16. -/
def digitValue (base : Nat) (c : Char) : Option Nat :=
  let d :=
    if '0'.toNat ≤ c.toNat ∧ c.toNat ≤ '9'.toNat then some (c.toNat - '0'.toNat)
    else if 'a'.toNat ≤ c.toNat ∧ c.toNat ≤ 'f'.toNat then some (c.toNat - 'a'.toNat + 10)
    else if 'A'.toNat ≤ c.toNat ∧ c.toNat ≤ 'F'.toNat then some (c.toNat - 'A'.toNat + 10)
    else none
  match d with
  | some v => if v < base then some v else none
  | none => none

/-- The value of a string of digits after `acc`. -/
def digitsValue (base : Nat) : Nat → List Char → Option Nat
  | acc, [] => some acc
  | acc, c :: cs =>
    match digitValue base c with
    | some d => digitsValue base (base * acc + d) cs
    | none => none

/-- The value of an address literal, `0b…` or `0x…` with at least one digit (R63). -/
def literalValue : List Char → Option Nat
  | '0' :: 'b' :: c :: cs => digitsValue 2 0 (c :: cs)
  | '0' :: 'x' :: c :: cs => digitsValue 16 0 (c :: cs)
  | _ => none

/-- The outcome words `T` or `taken`, `N` or `not_taken` (R63). -/
def outcomeOf (w : List Char) : Option BranchResult :=
  if w = ['T'] ∨ w = ['t', 'a', 'k', 'e', 'n'] then some .taken
  else if w = ['N'] ∨ w = ['n', 'o', 't', '_', 't', 'a', 'k', 'e', 'n'] then some .notTaken
  else none

/-- Spaces and tabs separate words. -/
def isBlank (c : Char) : Bool := c == ' ' || c == '\t' || c == '\r'

/-- Split a line, its comment dropped, into words; a comma is a word of its own. `w` is the word being read. -/
def tokens : List Char → List Char → List (List Char)
  | w, [] => if w.isEmpty then [] else [w]
  | w, c :: cs =>
    if c = ';' then (if w.isEmpty then [] else [w])
    else if isBlank c then (if w.isEmpty then tokens [] cs else w :: tokens [] cs)
    else if c = ',' then (if w.isEmpty then [','] :: tokens [] cs else w :: [','] :: tokens [] cs)
    else tokens (w ++ [c]) cs

/-- An address and an outcome as the operands of `update` and `step`. -/
def branchOperands (f : Nat → BranchResult → AsmLine) (lit out : List Char) : Option AsmLine :=
  match literalValue lit, outcomeOf out with
  | some a, some r => some (f a r)
  | _, _ => none

/-- Read one line (R63, R64). -/
def parseLine (line : List Char) : Option AsmLine :=
  match tokens [] line with
  | [] => some .blank
  | [m] => if m = ['m', 'o', 'n', 'i', 't', 'o', 'r'] then some .monitor else none
  | [m, lit] =>
    if m = ['p', 'r', 'e', 'd', 'i', 'c', 't'] then (literalValue lit).map .predict else none
  | [m, lit, comma, out] =>
    if comma ≠ [','] then none
    else if m = ['u', 'p', 'd', 'a', 't', 'e'] then branchOperands .update lit out
    else if m = ['s', 't', 'e', 'p'] then branchOperands .step lit out
    else none
  | _ => none

/-- A literal as an N-bit address: zero-extended, refused where its value needs more than N bits (R63). -/
def literalAddr (n value : Nat) : Option Bits :=
  if value < 2 ^ n then some (Bits.ofNat n value) else none

/-- The instructions of one line; `step` is the pair (R64). -/
def expandLine (n : Nat) : AsmLine → Option (List Instr)
  | .blank => some []
  | .monitor => some [.monitor]
  | .predict v => (literalAddr n v).map (fun a => [.predict a])
  | .update v r => (literalAddr n v).map (fun a => [.update a r])
  | .step v r => (literalAddr n v).map (fun a => [.predict a, .update a r])

/-- Split a text into lines. `l` is the line being read. -/
def linesOf : List Char → List Char → List (List Char)
  | l, [] => [l]
  | l, c :: cs => if c = '\n' then l :: linesOf [] cs else linesOf (l ++ [c]) cs

/-- The instructions of a list of lines, `none` where one is refused. -/
def assembleLines (n : Nat) : List (List Char) → Option (List Instr)
  | [] => some []
  | l :: ls =>
    match (parseLine l).bind (expandLine n), assembleLines n ls with
    | some is, some rest => some (is ++ rest)
    | _, _ => none

/-- Assemble a text for an engine with N-bit addresses (R63, R64). -/
def assemble (n : Nat) (text : List Char) : Option (List Instr) := assembleLines n (linesOf [] text)

/-- `assemble` of a string. -/
def assembleText (n : Nat) (text : String) : Option (List Instr) := assemble n text.toList

end Sys2Proof.Machine
end

