-- ==== Sys2Proof/Safety.lean ====
section
/-!
DEFINITION. What a state of the engine must satisfy, what a run is, and what a host must respect
(10_state.md; 42_operations.md R115, R116; 60_exceptions.md R126; 70_reset_and_hazards.md R149, R154).
-/

namespace Sys2Proof.Machine

/-- The content of a history register: `0^H` for a bank register not yet materialized (10_state.md R22, R36). -/
def State.histContent (s : State) : HistReg → Bits
  | .bhr => s.bhr
  | .bank k => (Table.get k s.bank).getD (Bits.zeros s.cfg.h)

/-- Index(a) as a function of the current history alone (41_indexing.md R92, R107). -/
def State.indexOf (s : State) (a : Bits) : Bits := indexKey s.cfg a (s.histContent (histSel s.cfg a))

/-- The counter at a PHT key: `0^S` for an entry not yet materialized (10_state.md R24, R36). -/
def State.counterAt (s : State) (k : Bits) : Bits := (Table.get k s.pht).getD (Bits.zeros s.cfg.s)

/-- What the fault record and the configuration say of each other. FAULT = 0: the configuration is legal, FCODE and FCMD
are zero (10_state.md R30, R33; 70_reset_and_hazards.md R144). FAULT = 1: FCODE is CONFIG_ERROR exactly where the
configuration is illegal, and then nothing was ever accepted (R144); else it is one of the two faults a command can
raise (60_exceptions.md R129, R130, R133, R134). -/
def State.faultRecordWf (s : State) : Bool :=
  if s.fault then
    if s.cfg.illegal then
      s.fcode == 0b001#3 && s.fcmd == Bits.zeros s.cfg.wordWidth && !s.pend && s.bank.isEmpty && s.pht.isEmpty
    else s.fcode == 0b010#3 || s.fcode == 0b011#3
  else !s.cfg.illegal && s.fcode == 0b000#3 && s.fcmd == Bits.zeros s.cfg.wordWidth

/-- While PEND = 1: the history register that fed the index is present, and CTR is the value of the PHT entry at
Index(PADDR) (42_operations.md R115, R116). -/
def State.pendingWf (s : State) : Bool :=
  !s.pend || (
    (match histSel s.cfg s.paddr with
     | .bhr => true
     | .bank k => (Table.get k s.bank).isSome)
    && Table.get (s.indexOf s.paddr) s.pht == some s.ctr)

/-- A well-formed state: every register and table of the width the configuration gives it (10_state.md R17 to R33; 00_scope.md
R9), a consistent fault record, and the pending invariant. -/
def State.wf (s : State) : Bool :=
  s.cfg.wf && Memory.wf s
  && s.bhr.length == s.cfg.bhrWidth && s.ctr.length == s.cfg.s && s.paddr.length == s.cfg.n
  && s.fcmd.length == s.cfg.wordWidth
  && s.faultRecordWf && s.pendingWf

/-- A safe state: the engine has not faulted (10_state.md R29). -/
def State.safe (s : State) : Bool := !s.fault

/-- The words of a list of instructions. -/
def wordsOf (n : Nat) (is : List Instr) : List Bits := is.map (encode n)

/-- A state with exactly these command words presented. -/
def present (words : List Bits) (s : State) : State := s.setInput (words.map Input.command)

/-- The command stream `words` run from `s` to its end (70_reset_and_hazards.md R154). -/
def runWords (words : List Bits) (s : State) : Result := Sys2Proof.core.run words.length (present words s)

/-- Every word is a command word of an engine with N-bit addresses: only such words can be presented (30_encoding.md R51, R52). -/
def presentable (n : Nat) (words : List Bits) : Prop := ∀ w ∈ words, w.length = n + 3

/-- The word is MONITOR's (30_encoding.md R54, R57). -/
def isMonitorWord (n : Nat) (w : Bits) : Bool := decode n w == .instr .monitor

/-- A state under another configuration: for comparing two instances (41_indexing.md R102). -/
def State.withCfg (s : State) (c : Cfg) : State := { s with cfg := c }

/-- A response whose snapshot shows another configuration. -/
def Response.withCfg (r : Response) (c : Cfg) : Response :=
  { r with snapshot := r.snapshot.map fun p => { p with cfg := c } }

/-- Two configurations of one address width behave the same: after reset, every command stream completes on both, with
the same responses and the same state, apart from CFG (41_indexing.md R102; 95_test_vectors.md section 2.8). -/
def SameBehaviour (c c' : Cfg) : Prop :=
  c.n = c'.n ∧ ∀ words, presentable c.n words →
    ∃ t t', runWords words (State.resetWith c) = .next t ∧ runWords words (State.resetWith c') = .next t'
      ∧ t.engine.withCfg c' = t'.engine ∧ t.output.map (Response.withCfg · c') = t'.output

/-- What the host must respect (R149): every PREDICT is followed by the UPDATE of the same address with nothing but
MONITORs between them, and no UPDATE comes otherwise. `p` is the address of the occurrence pending at the start. -/
def orderly : Option Bits → List Instr → Bool
  | _, [] => true
  | p, .monitor :: is => orderly p is
  | none, .predict a :: is => orderly (some a) is
  | some _, .predict _ :: _ => false
  | some a, .update b _ :: is => a == b && orderly none is
  | none, .update _ _ :: _ => false

/-- The address of the pending occurrence, if any (10_state.md R31, R32). -/
def State.pending (s : State) : Option Bits := if s.pend then some s.paddr else none

end Sys2Proof.Machine
end

