-- ==== Sys2Proof/Certificates/Slice0/Obligations.lean ====
section
/-!
DEFINITION. The statements for the provers, from the numbered rules of spec/. Each docstring names the rule. `State.wf` is
the model's invariant (Safety.lean); `StepKeepsWellFormed` states that every step keeps it and `EveryResetIsWellFormed`
that every reset has it. The witnesses of the hypotheses are in Tests/Slice0.lean.
-/

open Sys2Proof Sys2Proof.Machine

/-! ## Encoding -/

/-- Every well-formed instruction is what its command word decodes to (30_encoding.md R51 to R55). -/
def Obligations.DecodeOfEncode : Prop :=
  ∀ (n : Nat) (i : Instr), i.wf n = true → decode n (encode n i) = .instr i

/-- A word that decodes to an instruction is that instruction's command word: no two words mean the same
(30_encoding.md R55, R57). -/
def Obligations.EncodeOfDecode : Prop :=
  ∀ (n : Nat) (w : Bits) (i : Instr), decode n w = .instr i → i.wf n = true ∧ encode n i = w

/-- 30_encoding.md R55: every W-bit word is `addr ++ t ++ op`, and decodes as the rule's Decode says. -/
def Obligations.DecodeIsTotal : Prop :=
  ∀ (n : Nat) (w : Bits), w.length = n + 3 →
    ∃ (a : Bits) (t o₁ o₀ : Bool), a.length = n ∧ w = a ++ [t, o₁, o₀] ∧
      (o₁ = false ∧ o₀ = false ∧ t = false → decode n w = .instr (.predict a)) ∧
      (o₁ = false ∧ o₀ = true → decode n w = .instr (.update a (if t then .taken else .notTaken))) ∧
      (o₁ = true ∧ o₀ = false ∧ t = false ∧ a = Bits.zeros n → decode n w = .instr .monitor) ∧
      (o₁ = true ∧ o₀ = true ∨ o₁ = false ∧ o₀ = false ∧ t = true
          ∨ o₁ = true ∧ o₀ = false ∧ (t = true ∨ a ≠ Bits.zeros n) →
        ∃ why, decode n w = .illegal why)

/-- 30_encoding.md R66: the worked encodings, N = 4: text to word, word to instruction, and the ILLEGAL words.
The spec marks the rule derived (from R51 to R57). -/
def Obligations.WorkedEncodings : Prop :=
  (assembleText 4 "predict 0b0011").map (wordsOf 4) = some [Bits.ofNat 7 0x18]
  ∧ (assembleText 4 "update 0b0011, T").map (wordsOf 4) = some [Bits.ofNat 7 0x1D]
  ∧ (assembleText 4 "update 0b0011, N").map (wordsOf 4) = some [Bits.ofNat 7 0x19]
  ∧ (assembleText 4 "monitor").map (wordsOf 4) = some [Bits.ofNat 7 0x02]
  ∧ (assembleText 4 "predict 0b1010").map (wordsOf 4) = some [Bits.ofNat 7 0x50]
  ∧ (assembleText 4 "update 0b1010, T").map (wordsOf 4) = some [Bits.ofNat 7 0x55]
  ∧ decode 4 (Bits.ofNat 7 0x18) = .instr (.predict [false, false, true, true])
  ∧ decode 4 (Bits.ofNat 7 0x1D) = .instr (.update [false, false, true, true] .taken)
  ∧ decode 4 (Bits.ofNat 7 0x19) = .instr (.update [false, false, true, true] .notTaken)
  ∧ decode 4 (Bits.ofNat 7 0x02) = .instr .monitor
  ∧ decode 4 (Bits.ofNat 7 0x50) = .instr (.predict [true, false, true, false])
  ∧ decode 4 (Bits.ofNat 7 0x55) = .instr (.update [true, false, true, false] .taken)
  ∧ decode 4 (Bits.ofNat 7 0x03) = .illegal .reservedOp
  ∧ decode 4 (Bits.ofNat 7 0x1C) = .illegal .predictOutcomeBit
  ∧ decode 4 (Bits.ofNat 7 0x0A) = .illegal .monitorReservedField

/-- A number of the opcode table that decodes to an instruction runs as that instruction in the first step after reset.
It rests on the model's choices: notes/assumptions/2.md, the configuration of State.reset (4.md), and 12.md. -/
def Obligations.TableWordRunsFirst : Prop :=
  ∀ (nbits w : Nat) (i : Instr), decodeTableWord nbits w = some i →
    step (State.reset.withFetchWord nbits w) = exec i State.reset

/-! ## The step -/

/-- A step runs the decoded instruction: `step` takes the word off the input and is `exec` of what it decodes to
(42_operations.md R108). -/
def Obligations.StepRunsDecodedInstruction : Prop :=
  ∀ (s : State) (w : Bits) (rest : List Input) (i : Instr),
    s.input = .command w :: rest → decode s.cfg.n w = .instr i → step s = exec i (s.setInput rest)

/-- A word of another width than N + 3 stops the step, and an address of another width than N stops PREDICT and UPDATE:
the model's stops by name for what cannot be presented (30_encoding.md R52; notes/assumptions/6.md and 7.md). -/
def Obligations.UnpresentableWidthsStop : Prop :=
  (∀ (s : State) (w : Bits) (rest : List Input), s.input = .command w :: rest → w.length ≠ s.cfg.n + 3 →
    step s = .fault .wordWidth)
  ∧ ∀ (s : State) (a : Bits) (r : BranchResult), a.length ≠ s.cfg.n →
      exec (.predict a) s = .refused .operandWidth ∧ exec (.update a r) s = .refused .operandWidth

/-- 30_encoding.md R58, R59: every presentable command word completes with exactly one response, whose fields are those
of the state after the command. REFUSED is 1 exactly where FAULT was already 1 and the word is not MONITOR's. PRED is the
prediction bit of a PREDICT that completed, otherwise 0. A snapshot comes from MONITOR alone. -/
def Obligations.EveryCommandAnswersOnce : Prop :=
  ∀ (s : State) (w : Bits) (rest : List Input), s.wf = true → s.input = .command w :: rest → w.length = s.cfg.n + 3 →
    ∃ t r, step s = .next t ∧ t.input = rest ∧ t.output = s.output ++ [r]
      ∧ r.pend = t.pend ∧ r.fault = t.fault ∧ r.fcode = t.fcode
      ∧ r.refused = (s.fault && !isMonitorWord s.cfg.n w)
      ∧ r.snapshot.isSome = isMonitorWord s.cfg.n w
      ∧ ((∃ a, decode s.cfg.n w = .instr (.predict a)) ∧ s.fault = false ∧ s.pend = false →
          r.pred = predictionBit t.ctr)
      ∧ (¬ ((∃ a, decode s.cfg.n w = .instr (.predict a)) ∧ s.fault = false ∧ s.pend = false) → r.pred = false)

/-- 42_operations.md R121: the next state and the response are a function of the engine's state (R17) and the input
alone; what was answered before plays no part. The spec marks the rule derived (from R108, R109, R114, R119). -/
def Obligations.StepDependsOnEngineAndInput : Prop :=
  ∀ (s s' t : State), s.wf = true → s.engine = s'.engine → s.input = s'.input → step s = .next t →
    ∃ t' rs, step s' = .next t' ∧ t'.engine = t.engine ∧ t'.input = t.input
      ∧ ((∃ w rest, s.input = .command w :: rest) → t.output = s.output ++ rs ∧ t'.output = s'.output ++ rs)

/-! ## Configuration and reset -/

/-- 70_reset_and_hazards.md R145: a reset input leaves every piece of state at the rule's value, whatever the state was.
Four clauses are the model's choice and not R145's: what is presented after the reset stays presented (notes/assumptions/2.md),
the responses are emptied (3.md), CFG is `Cfg.ofInput` of what is presented, which drops an untaken K or HASH_MODE (8.md), and
BHR is the 0-bit vector in the variants with a bank (11.md). -/
def Obligations.ResetSequence : Prop :=
  ∀ (s : State) (c : CfgInput) (rest : List Input), s.input = .reset c :: rest →
    ∃ t, step s = .next t ∧ t.cfg = Cfg.ofInput c ∧ t.input = rest ∧ t.output = []
      ∧ t.bhr = (match Variant.ofCode c.variant with
          | .GAg | .GAp => Bits.zeros c.h
          | _ => [])
      ∧ (∀ k, Table.get k t.bank = none) ∧ (∀ k, Table.get k t.pht = none)
      ∧ t.ctr = Bits.zeros c.s ∧ t.pend = false ∧ t.paddr = Bits.zeros c.n ∧ t.fcmd = Bits.zeros (c.n + 3)
      ∧ ((Cfg.ofInput c).illegal = true → t.fault = true ∧ t.fcode = 0b001#3)
      ∧ ((Cfg.ofInput c).illegal = false → t.fault = false ∧ t.fcode = 0b000#3)

/-- 60_exceptions.md R128: reset comes up in the fault state with CONFIG_ERROR exactly where one of the conditions holds.
Condition 5 cannot hold: VARIANT is 3 bits. -/
def Obligations.ConfigErrorConditions : Prop :=
  ∀ (s : State) (c : CfgInput) (rest : List Input), s.input = .reset c :: rest →
    ∃ t, step s = .next t ∧
      ((t.fault = true ∧ t.fcode = 0b001#3) ↔
        (c.n < 1 ∨ c.h < 1 ∨ c.s < 1)
        ∨ (Variant.ofCode c.variant ∈ [Variant.PAs, .SAg, .SAp, .SAs] ∧ (c.k < 1 ∨ c.k > c.n))
        ∨ (Variant.ofCode c.variant ∈ [Variant.SAg, .SAp, .SAs] ∧ c.hashMode ≠ 0)
        ∨ c.countMode ≠ 0)

/-- 30_encoding.md R62: the variant codes, GAg = 000 to SAs = 111, and each code is one variant's. -/
def Obligations.VariantCodes : Prop :=
  [Variant.GAg, .GAp, .PAg, .PAp, .PAs, .SAg, .SAp, .SAs].map Variant.code =
      [0b000#3, 0b001#3, 0b010#3, 0b011#3, 0b100#3, 0b101#3, 0b110#3, 0b111#3]
  ∧ (∀ v : Variant, Variant.ofCode v.code = v) ∧ ∀ c : BitVec 3, (Variant.ofCode c).code = c

/-- 70_reset_and_hazards.md R143, R156: a run that begins with a reset is the same from every state. The spec
marks R156 derived (from R145 and R121). That the responses are the same too rests on the model's choice that a reset empties
their list (notes/assumptions/3.md). -/
def Obligations.ResetForgetsEverything : Prop :=
  ∀ (s s' : State) (c : CfgInput) (l : List Input),
    core.run (l.length + 1) (s.setInput (.reset c :: l)) = core.run (l.length + 1) (s'.setInput (.reset c :: l))

/-- The state of State.reset is well-formed, and so is the state after a reset with any configuration, legal or not. -/
def Obligations.EveryResetIsWellFormed : Prop :=
  State.reset.wf = true ∧ ∀ c : CfgInput, (State.resetWith (Cfg.ofInput c)).wf = true

/-- Every step keeps the well-formedness of the state: widths (00_scope.md R9; 10_state.md R17 to R33), canonical tables, a
consistent fault record, and the invariant of a pending occurrence (42_operations.md R115, R116). -/
def Obligations.StepKeepsWellFormed : Prop :=
  ∀ (s t : State), s.wf = true → step s = .next t → t.wf = true

/-- 10_state.md R18, R29: only a reset changes CFG, and no command clears FAULT. -/
def Obligations.OnlyResetChangesConfigOrClearsFault : Prop :=
  ∀ (s t : State), step s = .next t → (∀ c rest, s.input ≠ .reset c :: rest) →
    t.cfg = s.cfg ∧ (s.fault = true → t.fault = true)

/-! ## Primitives -/

/-- 40_primitives.md R70: insert keeps the length and is `2·v + b` with the oldest bit discarded. -/
def Obligations.InsertShiftsOneBitIn : Prop :=
  ∀ (v : Bits) (b : Bool), v ≠ [] →
    (srInsert b v).length = v.length ∧ (srInsert b v).val = (2 * v.val + b.toNat) % 2 ^ v.length

/-- 40_primitives.md R72: after m inserts, m at most L, the low m bits are the inserted bits in order and the high L - m
bits are the low L - m bits of the previous content. The spec marks the rule derived (from R70). -/
def Obligations.ShiftRegisterIsFifo : Prop :=
  ∀ (v bs : Bits), bs.length ≤ v.length → bs.foldl (fun r b => srInsert b r) v = v.drop bs.length ++ bs

/-- 40_primitives.md R79: Sat keeps the width and counts one step toward the outcome bit, up to 2^S - 1 at most and down to 0
at least; at an extreme it gives the counter itself. -/
def Obligations.SatCountsOneStep : Prop :=
  ∀ (c : Bits) (b : Bool),
    (sat c b).length = c.length
    ∧ (sat c b).val = (if b then min (c.val + 1) (2 ^ c.length - 1) else c.val - 1)
    ∧ (b = true ∧ c.val = 2 ^ c.length - 1 ∨ b = false ∧ c.val = 0 → sat c b = c)

/-- 40_primitives.md R81, the counter laws: (a) the range; (b) when a count changes nothing; (c) how many counts the
prediction takes to change from either end; (d) one-bit counters. The spec marks the rule derived (from R79 and R80). -/
def Obligations.CounterLaws : Prop :=
  (∀ (c : Bits) (b : Bool), (sat c b).length = c.length ∧ (sat c b).val ≤ 2 ^ c.length - 1)
  ∧ (∀ c : Bits, sat c true = c ↔ c.val = 2 ^ c.length - 1)
  ∧ (∀ c : Bits, sat c false = c ↔ c.val = 0)
  ∧ (∀ S m : Nat, 1 ≤ S →
      (predictionBit ((fun c => sat c true)^[m] (Bits.ofNat S 0)) = true ↔ 2 ^ (S - 1) ≤ m)
      ∧ (predictionBit ((fun c => sat c false)^[m] (Bits.ofNat S (2 ^ S - 1))) = false ↔ 2 ^ (S - 1) ≤ m))
  ∧ ∀ (c : Bits) (b : Bool), c.length = 1 → sat c b = [b]

/-- 40_primitives.md R80: the prediction is TAKEN exactly where the counter is at least half its range. -/
def Obligations.PredictionBitIsUpperHalf : Prop :=
  ∀ c : Bits, c ≠ [] → (predictionBit c = true ↔ 2 ^ (c.length - 1) ≤ c.val)

/-- 40_primitives.md R82, the closed form: output position j is the XOR of the address positions p with p mod K = j. -/
def Obligations.HashClosedForm : Prop :=
  ∀ (K : Nat) (a : Bits), 1 ≤ K → K ≤ a.length →
    (hashFold K a).length = K ∧
    ∀ j, j < K → (hashFold K a)[j]? =
      some (((List.range a.length).filter (fun p => p % K == j)).foldl (fun x p => xor x (a.getD p false)) false)

/-- 40_primitives.md R83 (c), (d), (e): the identity for K = N, the parity for K = 1, linearity over XOR. The spec marks
the rule derived (from R82). -/
def Obligations.HashLaws : Prop :=
  (∀ a : Bits, hashFold a.length a = a)
  ∧ (∀ a : Bits, hashFold 1 a = [a.foldl xor false])
  ∧ (∀ K n : Nat, hashFold K (Bits.zeros n) = Bits.zeros K)
  ∧ ∀ (K : Nat) (a b : Bits), a.length = b.length →
      hashFold K (List.zipWith xor a b) = List.zipWith xor (hashFold K a) (hashFold K b)

/-- 40_primitives.md R74, R75, R76, and R77 that no other key is touched. -/
def Obligations.BankOperations : Prop :=
  ∀ (s : State) (k : Bits),
    (∃ t, bankRead k s = ((Table.get k s.bank).getD (Bits.zeros s.cfg.h), t)
      ∧ (∀ k', Table.get k' t.bank =
          if k' = k then some ((Table.get k s.bank).getD (Bits.zeros s.cfg.h)) else Table.get k' s.bank)
      ∧ t.setBank s.bank = s ∧ (Table.get k s.bank ≠ none → t = s))
    ∧ (∀ b, (∀ k', Table.get k' (bankInsert k b s).bank =
          if k' = k then some (srInsert b ((Table.get k s.bank).getD (Bits.zeros s.cfg.h))) else Table.get k' s.bank)
        ∧ (bankInsert k b s).setBank s.bank = s)
    ∧ (∀ v, v.length = s.cfg.h → ∃ t, bankWrite k v s = .ok t
        ∧ (∀ k', Table.get k' t.bank = if k' = k then some v else Table.get k' s.bank) ∧ t.setBank s.bank = s)
    ∧ (∀ v, v.length ≠ s.cfg.h → bankWrite k v s = .error .lengthMismatch)

/-- 40_primitives.md R86, R87, R88, for a key of KP bits: PhtEnsure writes the zero default only where the key is absent;
PhtGet of an absent key is UNDEFINED_ENTRY; PhtPut overwrites, and a value of another width is LENGTH_MISMATCH. -/
def Obligations.HistoryTableOperations : Prop :=
  ∀ (s : State) (k : Bits), k.length = s.cfg.phtKeyWidth →
    (Table.get k s.pht ≠ none → phtEnsure k s = s)
    ∧ (Table.get k s.pht = none →
        (∀ k', Table.get k' (phtEnsure k s).pht = if k' = k then some (Bits.zeros s.cfg.s) else Table.get k' s.pht)
        ∧ (phtEnsure k s).setPht s.pht = s)
    ∧ (Table.get k s.pht = none → phtGet k s = .error .undefinedEntry)
    ∧ (∀ v, Table.get k s.pht = some v → phtGet k s = .ok v)
    ∧ (∀ v, v.length = s.cfg.s → ∃ t, phtPut k v s = .ok t
        ∧ (∀ k', Table.get k' t.pht = if k' = k then some v else Table.get k' s.pht) ∧ t.setPht s.pht = s)
    ∧ (∀ v, v.length ≠ s.cfg.s → phtPut k v s = .error .lengthMismatch)

/-- 40_primitives.md R69: load replaces the content where the width is the register's, and otherwise is LENGTH_MISMATCH. -/
def Obligations.LoadChecksTheWidth : Prop :=
  ∀ (L : Nat) (v : Bits),
    (v.length = L → srLoad L v = .ok v) ∧ (v.length ≠ L → srLoad L v = .error .lengthMismatch)

/-! ## The indexer -/

/-- 41_indexing.md R92 (and R93's HistSel): HistKey, HistVal and Index of the eight variants; Index has exactly KP bits, and the only change of
state is the materialization of the bank register it reads. -/
def Obligations.IndexerTable : Prop :=
  ∀ (s : State) (a : Bits), s.wf = true → a.length = s.cfg.n →
    (match s.cfg.variant with
      | .GAg | .GAp => histSel s.cfg a = .bhr ∧ histVal a s = (s.bhr, s)
      | .PAg | .PAp | .PAs => histKey s.cfg a = a ∧ histSel s.cfg a = .bank a ∧ histVal a s = bankRead a s
      | .SAg | .SAp | .SAs => histKey s.cfg a = hashFold s.cfg.setWidth a
          ∧ histSel s.cfg a = .bank (hashFold s.cfg.setWidth a) ∧ histVal a s = bankRead (hashFold s.cfg.setWidth a) s)
    ∧ (index a s).2 = (histVal a s).2
    ∧ (index a s).1 = (match s.cfg.variant with
        | .GAg | .PAg | .PAs | .SAg => (histVal a s).1
        | .GAp | .PAp | .SAp => a ++ (histVal a s).1
        | .SAs => hashFold s.cfg.setWidth a ++ (histVal a s).1)
    ∧ (index a s).1.length = s.cfg.phtKeyWidth

/-- 41_indexing.md R104: which history register and which PHT entry two different addresses share, by variant. `s` and
`t` are the states in which the two are predicted. The spec marks the rule derived (from R92 and R83). -/
def Obligations.SharingByVariant : Prop :=
  ∀ (s t : State) (a a' : Bits), s.wf = true → t.wf = true → s.cfg = t.cfg → a.length = s.cfg.n → a'.length = s.cfg.n →
    a ≠ a' →
    (histSel s.cfg a = histSel s.cfg a' ↔
      match s.cfg.variant with
      | .GAg | .GAp => True
      | .PAg | .PAp | .PAs => False
      | .SAg | .SAp | .SAs => hashFold s.cfg.setWidth a = hashFold s.cfg.setWidth a')
    ∧ (s.indexOf a = t.indexOf a' ↔
      match s.cfg.variant with
      | .GAg => s.bhr = t.bhr
      | .GAp | .PAp | .SAp => False
      | .PAg | .PAs => s.histContent (.bank a) = t.histContent (.bank a')
      | .SAg => s.histContent (.bank (hashFold s.cfg.setWidth a)) = t.histContent (.bank (hashFold s.cfg.setWidth a'))
      | .SAs => hashFold s.cfg.setWidth a = hashFold s.cfg.setWidth a'
          ∧ s.histContent (.bank (hashFold s.cfg.setWidth a)) = t.histContent (.bank (hashFold s.cfg.setWidth a')))

/-- 41_indexing.md R106: the worked index table, N = 4, K = 2, H = 2, a = 0110. The spec marks the rule derived (from R94 to
R101). -/
def Obligations.WorkedIndexTable : Prop :=
  let cfg (v : Variant) : Cfg := Cfg.ofInput ⟨v.code, 4, 2, 2, 2, 0, 0⟩
  let a := [false, true, true, false]
  let g (v : Variant) : State := (State.resetWith (cfg v)).setBhr [false, true]
  let p (v : Variant) : State := (State.resetWith (cfg v)).setBank [(a, [true, false])]
  let h (v : Variant) : State := (State.resetWith (cfg v)).setBank [([true, true], [false, true])]
  hashFold 2 a = [true, true]
  ∧ histSel (cfg .GAg) a = .bhr ∧ (index a (g .GAg)).1 = [false, true]
  ∧ histSel (cfg .GAp) a = .bhr ∧ (index a (g .GAp)).1 = [false, true, true, false, false, true]
  ∧ histSel (cfg .PAg) a = .bank a ∧ (index a (p .PAg)).1 = [true, false]
  ∧ histSel (cfg .PAp) a = .bank a ∧ (index a (p .PAp)).1 = [false, true, true, false, true, false]
  ∧ histSel (cfg .PAs) a = .bank a ∧ (index a (p .PAs)).1 = [true, false]
  ∧ histSel (cfg .SAg) a = .bank [true, true] ∧ (index a (h .SAg)).1 = [false, true]
  ∧ histSel (cfg .SAp) a = .bank [true, true] ∧ (index a (h .SAp)).1 = [false, true, true, false, false, true]
  ∧ histSel (cfg .SAs) a = .bank [true, true] ∧ (index a (h .SAs)).1 = [true, true, false, true]
  ∧ [Variant.GAg, .GAp, .PAg, .PAp, .PAs, .SAg, .SAp, .SAs].map (fun v => (cfg v).phtKeyWidth)
      = [2, 6, 2, 6, 2, 2, 6, 4]

/-! ## PREDICT -/

/-- 42_operations.md R109, PREDICT whole: its word, ILLEGAL with t = 1, PROTOCOL_VIOLATION while PEND = 1, and otherwise its
effect: the entry at Index(a) present with the counter it had (0^S if it had none), CTR that counter, PEND, PADDR and the
response's PRED; the bank register read is present; nothing else changes. -/
def Obligations.PredictMeaning : Prop :=
  ∀ (s : State) (a : Bits), s.wf = true → a.length = s.cfg.n → s.fault = false →
    decode s.cfg.n (a ++ [false, false, false]) = .instr (.predict a)
    ∧ (∃ why, decode s.cfg.n (a ++ [true, false, false]) = .illegal why)
    ∧ (s.pend = true → exec (.predict a) s = .next
        { s with
          fault := true, fcode := 0b011#3, fcmd := a ++ [false, false, false]
          output := s.output ++ [⟨responseWord false true true 0b011#3 false, none⟩] })
    ∧ (s.pend = false → ∃ t, exec (.predict a) s = .next t
        ∧ (∀ k, Table.get k t.pht =
            if k = s.indexOf a then some (s.counterAt (s.indexOf a)) else Table.get k s.pht)
        ∧ (∀ k, Table.get k t.bank =
            if histSel s.cfg a = .bank k then some (s.histContent (.bank k)) else Table.get k s.bank)
        ∧ t.ctr = s.counterAt (s.indexOf a) ∧ t.pend = true ∧ t.paddr = a
        ∧ t.output = s.output ++
            [⟨responseWord (predictionBit (s.counterAt (s.indexOf a))) true false 0b000#3 false, none⟩]
        ∧ t.cfg = s.cfg ∧ t.bhr = s.bhr ∧ t.fault = false ∧ t.fcode = 0b000#3 ∧ t.fcmd = s.fcmd ∧ t.input = s.input)

/-- 42_operations.md R110, R111, the frame of a PREDICT that completes: no counter value and no history value changes, in
any table or register; only the PHT entry Index(a) and, in the variants with a bank, the register HistKey(a) may become
present, and none becomes absent; beside that only CTR, PEND and PADDR change. The spec marks both rules derived (from R109). -/
def Obligations.PredictFrame : Prop :=
  ∀ (s : State) (a : Bits), s.wf = true → a.length = s.cfg.n → s.fault = false → s.pend = false →
    ∃ t, exec (.predict a) s = .next t
      ∧ (∀ k, t.counterAt k = s.counterAt k) ∧ (∀ r : HistReg, t.histContent r = s.histContent r)
      ∧ (∀ k, k ≠ s.indexOf a → Table.get k t.pht = Table.get k s.pht)
      ∧ (∀ k v, Table.get k s.pht = some v → Table.get k t.pht = some v)
      ∧ (∀ k, k ≠ histKey s.cfg a → Table.get k t.bank = Table.get k s.bank)
      ∧ (s.cfg.variant.banked = false → t.bank = s.bank)
      ∧ (∀ k v, Table.get k s.bank = some v → Table.get k t.bank = some v)
      ∧ t.cfg = s.cfg ∧ t.bhr = s.bhr ∧ t.fault = s.fault ∧ t.fcode = s.fcode ∧ t.fcmd = s.fcmd ∧ t.input = s.input
      ∧ (∃ r, t.output = s.output ++ [r])

/-- 42_operations.md R112 (its first sentence): after a reset with a legal configuration, of every variant, the first
PREDICT of any address answers NOT_TAKEN. The spec marks the rule derived (from R109 and R35). That its response is the only
one in the list is the model's choice (notes/assumptions/3.md). -/
def Obligations.FirstPredictIsNotTaken : Prop :=
  ∀ (c : CfgInput) (a : Bits), (Cfg.ofInput c).illegal = false → a.length = c.n →
    ∃ t, exec (.predict a) (State.resetWith (Cfg.ofInput c)) = .next t
      ∧ t.output = [⟨0b0000010#7, none⟩] ∧ t.pend = true ∧ t.paddr = a

/-- 10_state.md R36: a PREDICT behaves the same on an absent entry or bank register as on a present one holding zero: the
same response and the same state after it. The spec marks the sentence derived (from R74 and R86). -/
def Obligations.AbsentPredictsAsZero : Prop :=
  ∀ (s : State) (a : Bits), s.wf = true → a.length = s.cfg.n → s.fault = false → s.pend = false →
    exec (.predict a) s = exec (.predict a) (phtEnsure (s.indexOf a) s)
    ∧ (s.cfg.variant.banked = true → exec (.predict a) s = exec (.predict a) (bankRead (histKey s.cfg a) s).2)

/-- 42_operations.md R122, PREDICT's reads: beside PEND and the fault state, its response depends only on the history
register it selects and the counter at its index. The spec marks the rule derived (from R109). -/
def Obligations.PredictReadsOnlyItsEntry : Prop :=
  ∀ (s s' : State) (a : Bits), s.wf = true → s'.wf = true → a.length = s.cfg.n → s.cfg = s'.cfg → s.pend = s'.pend →
    s.fault = s'.fault → s.fcode = s'.fcode →
    s.histContent (histSel s.cfg a) = s'.histContent (histSel s.cfg a) →
    s.counterAt (s.indexOf a) = s'.counterAt (s.indexOf a) →
    ∃ t t' r, exec (.predict a) s = .next t ∧ exec (.predict a) s' = .next t'
      ∧ t.output = s.output ++ [r] ∧ t'.output = s'.output ++ [r]

/-! ## UPDATE -/

/-- 42_operations.md R114 (its order is R113's), UPDATE whole: its word, PROTOCOL_VIOLATION where no PREDICT of the same
address is pending, and otherwise its effect: CTR one step toward the outcome, the entry at the index of the PRE-SHIFT
history set to it, the outcome bit shifted into the one history register that fed the index, PEND cleared, PADDR kept,
nothing else changed. -/
def Obligations.UpdateMeaning : Prop :=
  ∀ (s : State) (a : Bits) (r : BranchResult), s.wf = true → a.length = s.cfg.n → s.fault = false →
    decode s.cfg.n (a ++ [r.bit, false, true]) = .instr (.update a r)
    ∧ (s.pend = false ∨ s.paddr ≠ a → exec (.update a r) s = .next
        { s with
          fault := true, fcode := 0b011#3, fcmd := a ++ [r.bit, false, true]
          output := s.output ++ [⟨responseWord false s.pend true 0b011#3 false, none⟩] })
    ∧ (s.pend = true ∧ s.paddr = a → ∃ t, exec (.update a r) s = .next t
        ∧ t.ctr = sat s.ctr r.bit
        ∧ (∀ k, Table.get k t.pht = if k = s.indexOf a then some (sat s.ctr r.bit) else Table.get k s.pht)
        ∧ t.bhr = (if histSel s.cfg a = .bhr then srInsert r.bit s.bhr else s.bhr)
        ∧ (∀ k, Table.get k t.bank =
            if histSel s.cfg a = .bank k then some (srInsert r.bit (s.histContent (.bank k))) else Table.get k s.bank)
        ∧ t.pend = false ∧ t.paddr = a
        ∧ t.output = s.output ++ [⟨responseWord false false false 0b000#3 false, none⟩]
        ∧ t.cfg = s.cfg ∧ t.fault = false ∧ t.fcode = 0b000#3 ∧ t.fcmd = s.fcmd ∧ t.input = s.input)

/-- The frame of an UPDATE that completes (42_operations.md R122; 10_state.md R23): beside CTR and PEND it writes exactly
one counter, at Index(a), and exactly one history register, HistSel(a); every other counter and history register, and
PADDR, CFG and the fault record, are unchanged. The spec marks R122 derived (from R114). -/
def Obligations.UpdateFrame : Prop :=
  ∀ (s : State) (r : BranchResult), s.wf = true → s.fault = false → s.pend = true →
    ∃ t, exec (.update s.paddr r) s = .next t
      ∧ (∀ k, k ≠ s.indexOf s.paddr → Table.get k t.pht = Table.get k s.pht)
      ∧ (∀ h : HistReg, h ≠ histSel s.cfg s.paddr → t.histContent h = s.histContent h)
      ∧ (∀ k, .bank k ≠ histSel s.cfg s.paddr → Table.get k t.bank = Table.get k s.bank)
      ∧ t.histContent (histSel s.cfg s.paddr) = srInsert r.bit (s.histContent (histSel s.cfg s.paddr))
      ∧ t.paddr = s.paddr ∧ t.cfg = s.cfg ∧ t.fault = s.fault ∧ t.fcode = s.fcode ∧ t.fcmd = s.fcmd
      ∧ t.input = s.input ∧ (∃ x, t.output = s.output ++ [x])

/-- 42_operations.md R116: in every state a run reaches, from a reset with any configuration and with any inputs, while
PEND = 1 the working counter is the value of the entry at Index(PADDR), and what PhtGet answers there: UPDATE may saturate
either. The spec marks the rule derived (from R109, R114, R115). -/
def Obligations.WorkingCounterIsTheEntry : Prop :=
  ∀ (c : CfgInput) (l : List Input) (k : Nat) (t : State),
    core.run k ((State.resetWith (Cfg.ofInput c)).setInput l) = .next t → t.pend = true →
      Table.get (t.indexOf t.paddr) t.pht = some t.ctr ∧ phtGet (t.indexOf t.paddr) t = .ok t.ctr

/-- 42_operations.md R117: the net effect of one branch occurrence, predict a then update a, r. The spec marks the rule
derived (from R109, R114, R116). -/
def Obligations.OneBranchOccurrence : Prop :=
  ∀ (s : State) (a : Bits) (r : BranchResult), s.wf = true → a.length = s.cfg.n → s.fault = false → s.pend = false →
    ∃ t u, exec (.predict a) s = .next t ∧ exec (.update a r) t = .next u
      ∧ (∀ k, Table.get k u.pht =
          if k = s.indexOf a then some (sat (s.counterAt (s.indexOf a)) r.bit) else Table.get k s.pht)
      ∧ u.ctr = sat (s.counterAt (s.indexOf a)) r.bit
      ∧ u.histContent (histSel s.cfg a) = srInsert r.bit (s.histContent (histSel s.cfg a))
      ∧ (∀ h : HistReg, h ≠ histSel s.cfg a → u.histContent h = s.histContent h)
      ∧ (∀ k, .bank k ≠ histSel s.cfg a → Table.get k u.bank = Table.get k s.bank)
      ∧ u.pend = false ∧ u.paddr = a
      ∧ u.output = s.output ++
          [⟨responseWord (predictionBit (s.counterAt (s.indexOf a))) true false 0b000#3 false, none⟩,
           ⟨responseWord false false false 0b000#3 false, none⟩]
      ∧ u.cfg = s.cfg ∧ u.fault = false ∧ u.fcode = s.fcode ∧ u.fcmd = s.fcmd ∧ u.input = s.input

/-! ## MONITOR -/

/-- 42_operations.md R118, R119, MONITOR whole: its word, ILLEGAL where a reserved field is set; it completes in every state, the fault state and a pending occurrence included, changes
nothing but its response, and its snapshot shows every register and exactly the present keys of the two tables, in
ascending order. -/
def Obligations.MonitorMeaning : Prop :=
  ∀ (s : State), s.wf = true →
    decode s.cfg.n (Bits.zeros s.cfg.n ++ [false, true, false]) = .instr .monitor
    ∧ (∀ (a : Bits) (t : Bool), a.length = s.cfg.n → (t = true ∨ a ≠ Bits.zeros s.cfg.n) →
        ∃ why, decode s.cfg.n (a ++ [t, true, false]) = .illegal why)
    ∧ ∃ p : Snapshot, exec .monitor s = .next
        { s with output := s.output ++ [⟨responseWord false s.pend s.fault s.fcode false, some p⟩] }
      ∧ p.cfg = s.cfg ∧ p.ctr = s.ctr ∧ p.pend = s.pend ∧ p.paddr = s.paddr ∧ p.fault = s.fault
      ∧ p.fcode = s.fcode ∧ p.fcmd = s.fcmd
      ∧ p.bhr = (match s.cfg.variant with
          | .GAg | .GAp => some s.bhr
          | _ => none)
      ∧ (∀ k v, (k, v) ∈ p.bank ↔ Table.get k s.bank = some v)
      ∧ (∀ k v, (k, v) ∈ p.pht ↔ Table.get k s.pht = some v)
      ∧ p.bank.Pairwise (fun x y => x.1.val < y.1.val) ∧ p.pht.Pairwise (fun x y => x.1.val < y.1.val)

/-- 42_operations.md R120: deleting every MONITOR of a command stream changes neither the final state nor any other
response. The spec marks the rule derived (from R119). -/
def Obligations.MonitorIsInvisible : Prop :=
  ∀ (s : State) (words : List Bits), s.wf = true → presentable s.cfg.n words →
    ∃ t t', runWords words s = .next t
      ∧ runWords (words.filter (fun w => !isMonitorWord s.cfg.n w)) s = .next t'
      ∧ t.engine = t'.engine
      ∧ t.output.filter (fun r => r.snapshot.isNone) = t'.output.filter (fun r => r.snapshot.isNone)

/-! ## Faults -/

/-- 60_exceptions.md R129: a word that decodes to ILLEGAL (op = 11; op = 00 with t = 1; op = 10 with t = 1 or addr other than
0^N) raises ILLEGAL_COMMAND and records the whole word. -/
def Obligations.IllegalWordRaises : Prop :=
  ∀ (s : State) (a : Bits) (t o₁ o₀ : Bool) (rest : List Input),
    a.length = s.cfg.n → s.input = .command (a ++ [t, o₁, o₀]) :: rest → s.fault = false →
    (o₁ = true ∧ o₀ = true) ∨ (o₁ = false ∧ o₀ = false ∧ t = true)
      ∨ (o₁ = true ∧ o₀ = false ∧ (t = true ∨ a ≠ Bits.zeros s.cfg.n)) →
    step s = .next
      { s with
        input := rest, fault := true, fcode := 0b010#3, fcmd := a ++ [t, o₁, o₀]
        output := s.output ++ [⟨responseWord false s.pend true 0b010#3 false, none⟩] }

/-- 60_exceptions.md R130: the three cases of PROTOCOL_VIOLATION, and what each leaves (R127). -/
def Obligations.ProtocolViolations : Prop :=
  ∀ (s : State) (a : Bits) (r : BranchResult), a.length = s.cfg.n → s.fault = false →
    (s.pend = true → exec (.predict a) s = .next
      { s with
        fault := true, fcode := 0b011#3, fcmd := encode s.cfg.n (.predict a)
        output := s.output ++ [⟨responseWord false true true 0b011#3 false, none⟩] })
    ∧ (s.pend = false → exec (.update a r) s = .next
      { s with
        fault := true, fcode := 0b011#3, fcmd := encode s.cfg.n (.update a r)
        output := s.output ++ [⟨responseWord false false true 0b011#3 false, none⟩] })
    ∧ (s.pend = true → s.paddr ≠ a → exec (.update a r) s = .next
      { s with
        fault := true, fcode := 0b011#3, fcmd := encode s.cfg.n (.update a r)
        output := s.output ++ [⟨responseWord false true true 0b011#3 false, none⟩] })

/-- 60_exceptions.md R131: a command that raises a fault changes nothing but FAULT, FCODE and FCMD; FCMD is its word. -/
def Obligations.FaultsArePrecise : Prop :=
  ∀ (s t : State) (w : Bits) (rest : List Input), s.wf = true → s.input = .command w :: rest → s.fault = false →
    step s = .next t → t.fault = true → t.engine = (s.setFault t.fcode w).engine

/-- 60_exceptions.md R132: the fault state is sticky. Whatever commands follow, the engine's state stays as it is, and each
command but MONITOR gets the refusal. -/
def Obligations.FaultStateIsSticky : Prop :=
  ∀ (s : State) (words : List Bits), s.fault = true → presentable s.cfg.n words →
    ∃ t, runWords words s = .next t ∧ t.engine = s.engine
      ∧ t.output.length = s.output.length + words.length
      ∧ ∀ j w, words[j]? = some w → isMonitorWord s.cfg.n w = false →
          t.output[s.output.length + j]? = some ⟨responseWord false s.pend true s.fcode true, none⟩

/-- 10_state.md R30, R33: FCODE and FCMD are zero while FAULT = 0, and a command writes them only as FAULT goes from 0 to 1:
FCMD then holds its word. -/
def Obligations.FaultRecordIsWrittenOnce : Prop :=
  ∀ (s t : State) (w : Bits) (rest : List Input), s.wf = true → s.input = .command w :: rest → step s = .next t →
    (t.fault = false → t.fcode = 0b000#3 ∧ t.fcmd = Bits.zeros (s.cfg.n + 3))
    ∧ (t.fcode ≠ s.fcode ∨ t.fcmd ≠ s.fcmd → s.fault = false ∧ t.fault = true)
    ∧ (s.fault = false ∧ t.fault = true → t.fcmd = w)

/-- 60_exceptions.md R133, R134 and R126's reserved codes: in every state a run reaches, from a reset with any configuration
and with any inputs, FCODE is never LENGTH_MISMATCH, UNDEFINED_ENTRY or a reserved code. The spec marks R133 and R134 derived. -/
def Obligations.PrimitiveFaultsAreUnreachable : Prop :=
  ∀ (c : CfgInput) (l : List Input) (k : Nat) (t : State),
    core.run k ((State.resetWith (Cfg.ofInput c)).setInput l) = .next t →
      t.fcode = 0b000#3 ∨ t.fcode = 0b001#3 ∨ t.fcode = 0b010#3 ∨ t.fcode = 0b011#3

/-- 70_reset_and_hazards.md R149 with 60_exceptions.md R130: a stream of commands runs to its end, and it ends without a
fault exactly where every PREDICT is followed by the UPDATE of its address with only MONITORs between. -/
def Obligations.OrderlyStreamsExactlyDoNotFault : Prop :=
  ∀ (s : State) (is : List Instr), s.wf = true → s.fault = false → (∀ i ∈ is, i.wf s.cfg.n = true) →
    ∃ t, runWords (wordsOf s.cfg.n is) s = .next t ∧ (t.fault = false ↔ orderly s.pending is = true)

/-! ## Equivalent variants -/

/-- 41_indexing.md R102: PAs, with any legal K, and PAg are indistinguishable apart from CFG. The spec marks the rule derived
(from R96 and R98). -/
def Obligations.PAsBehavesAsPAg : Prop :=
  ∀ n h s k m m' : Nat, 1 ≤ n → 1 ≤ h → 1 ≤ s → 1 ≤ k → k ≤ n → ∀ k' : Nat,
    SameBehaviour (Cfg.ofInput ⟨Variant.code .PAs, n, h, s, k, m, 0⟩)
      (Cfg.ofInput ⟨Variant.code .PAg, n, h, s, k', m', 0⟩)

/-- With K = N the hashed set is the address (40_primitives.md R83 (c)): SAg behaves as PAg, SAp and SAs as PAp
(95_test_vectors.md section 2.8, Equivalences). -/
def Obligations.FullWidthSetsBehaveAsAddresses : Prop :=
  ∀ n h s k m : Nat, 1 ≤ n → 1 ≤ h → 1 ≤ s →
    SameBehaviour (Cfg.ofInput ⟨Variant.code .SAg, n, h, s, n, 0, 0⟩)
      (Cfg.ofInput ⟨Variant.code .PAg, n, h, s, k, m, 0⟩)
    ∧ SameBehaviour (Cfg.ofInput ⟨Variant.code .SAp, n, h, s, n, 0, 0⟩)
      (Cfg.ofInput ⟨Variant.code .PAp, n, h, s, k, m, 0⟩)
    ∧ SameBehaviour (Cfg.ofInput ⟨Variant.code .SAs, n, h, s, n, 0, 0⟩)
      (Cfg.ofInput ⟨Variant.code .PAp, n, h, s, k, m, 0⟩)

/-! ## Assembler -/

/-- 30_encoding.md R63, R64: a literal is zero-extended to N bits and refused where its value needs more; `step` is predict
then update. -/
def Obligations.AssemblerExpansion : Prop :=
  ∀ (n v : Nat) (r : BranchResult),
    (v < 2 ^ n → ∃ a : Bits, a.length = n ∧ a.val = v ∧ expandLine n (.predict v) = some [.predict a]
      ∧ expandLine n (.update v r) = some [.update a r]
      ∧ expandLine n (.step v r) = some [.predict a, .update a r])
    ∧ (2 ^ n ≤ v → expandLine n (.predict v) = none ∧ expandLine n (.update v r) = none
      ∧ expandLine n (.step v r) = none)
end

