-- ==== Sys2Proof/Laws/Bits.lean ====
section
/-!
SUPPORT. Laws of the bit vectors: widths, the value of a vector and the vector of a value.
-/

namespace Sys2Proof

@[simp] theorem Bits.length_zeros (L : Nat) : (Bits.zeros L).length = L := List.length_replicate

@[simp] theorem Bits.length_ofNat (L n : Nat) : (Bits.ofNat L n).length = L := by
  induction L with
  | zero => rfl
  | succ L ih => simp [Bits.ofNat, ih]

theorem Bits.val_lt (v : Bits) : v.val < 2 ^ v.length := by
  induction v with
  | nil => simp [Bits.val]
  | cons b v ih =>
    cases b <;> simp [Bits.val, Nat.pow_succ] <;> omega

@[simp] theorem Bits.val_zeros (L : Nat) : (Bits.zeros L).val = 0 := by
  induction L with
  | zero => rfl
  | succ L ih => simpa [Bits.zeros, List.replicate_succ, Bits.val] using ih

theorem Bits.val_ofNat_mod (L n : Nat) : (Bits.ofNat L n).val = n % 2 ^ L := by
  induction L with
  | zero => simp [Bits.ofNat, Bits.val, Nat.mod_one]
  | succ L ih =>
    simp only [Bits.ofNat, Bits.val, Bits.length_ofNat, ih]
    rw [Nat.mod_pow_succ, Nat.toNat_testBit, Nat.mul_comm, Nat.add_comm]

theorem Bits.val_ofNat {L n : Nat} (h : n < 2 ^ L) : (Bits.ofNat L n).val = n := by
  rw [Bits.val_ofNat_mod, Nat.mod_eq_of_lt h]

/-- Vectors of one width are determined by their value. -/
theorem Bits.val_inj {v w : Bits} (hl : v.length = w.length) (h : v.val = w.val) : v = w := by
  induction v generalizing w with
  | nil => cases w <;> simp_all
  | cons b v ih =>
    cases w with
    | nil => simp at hl
    | cons c w =>
      simp only [List.length_cons, Nat.add_right_cancel_iff] at hl
      have hv := Bits.val_lt v
      have hw := Bits.val_lt w
      simp only [Bits.val, hl] at h hv
      have hb : b = c := by
        cases b <;> cases c <;> simp at h ⊢
        all_goals omega
      subst hb
      rw [ih hl (by omega)]

@[simp] theorem Bits.ofNat_val (v : Bits) : Bits.ofNat v.length v.val = v :=
  Bits.val_inj (by simp) (Bits.val_ofNat v.val_lt)

/-- The most significant bit is set exactly where the value is at least half the range (40_primitives.md R80). -/
theorem Bits.head_iff_val (b : Bool) (v : Bits) : b = true ↔ 2 ^ v.length ≤ Bits.val (b :: v) := by
  have := Bits.val_lt v
  cases b
  · simpa [Bits.val] using this
  · simp [Bits.val]

end Sys2Proof
end

