-- ==== Sys2Proof/Laws/State.lean ====
section
/-!
SUPPORT. One lemma per field per named update of the state: no later proof unfolds a record update.
-/

namespace Sys2Proof.Machine

@[simp] theorem State.setBhr_cfg (s : State) (v : Bits) : (s.setBhr v).cfg = s.cfg := rfl
@[simp] theorem State.setBhr_bhr (s : State) (v : Bits) : (s.setBhr v).bhr = v := rfl
@[simp] theorem State.setBhr_bank (s : State) (v : Bits) : (s.setBhr v).bank = s.bank := rfl
@[simp] theorem State.setBhr_pht (s : State) (v : Bits) : (s.setBhr v).pht = s.pht := rfl
@[simp] theorem State.setBhr_ctr (s : State) (v : Bits) : (s.setBhr v).ctr = s.ctr := rfl
@[simp] theorem State.setBhr_pend (s : State) (v : Bits) : (s.setBhr v).pend = s.pend := rfl
@[simp] theorem State.setBhr_paddr (s : State) (v : Bits) : (s.setBhr v).paddr = s.paddr := rfl
@[simp] theorem State.setBhr_fault (s : State) (v : Bits) : (s.setBhr v).fault = s.fault := rfl
@[simp] theorem State.setBhr_fcode (s : State) (v : Bits) : (s.setBhr v).fcode = s.fcode := rfl
@[simp] theorem State.setBhr_fcmd (s : State) (v : Bits) : (s.setBhr v).fcmd = s.fcmd := rfl
@[simp] theorem State.setBhr_input (s : State) (v : Bits) : (s.setBhr v).input = s.input := rfl
@[simp] theorem State.setBhr_output (s : State) (v : Bits) : (s.setBhr v).output = s.output := rfl

@[simp] theorem State.setBank_cfg (s : State) (t : Table) : (s.setBank t).cfg = s.cfg := rfl
@[simp] theorem State.setBank_bhr (s : State) (t : Table) : (s.setBank t).bhr = s.bhr := rfl
@[simp] theorem State.setBank_bank (s : State) (t : Table) : (s.setBank t).bank = t := rfl
@[simp] theorem State.setBank_pht (s : State) (t : Table) : (s.setBank t).pht = s.pht := rfl
@[simp] theorem State.setBank_ctr (s : State) (t : Table) : (s.setBank t).ctr = s.ctr := rfl
@[simp] theorem State.setBank_pend (s : State) (t : Table) : (s.setBank t).pend = s.pend := rfl
@[simp] theorem State.setBank_paddr (s : State) (t : Table) : (s.setBank t).paddr = s.paddr := rfl
@[simp] theorem State.setBank_fault (s : State) (t : Table) : (s.setBank t).fault = s.fault := rfl
@[simp] theorem State.setBank_fcode (s : State) (t : Table) : (s.setBank t).fcode = s.fcode := rfl
@[simp] theorem State.setBank_fcmd (s : State) (t : Table) : (s.setBank t).fcmd = s.fcmd := rfl
@[simp] theorem State.setBank_input (s : State) (t : Table) : (s.setBank t).input = s.input := rfl
@[simp] theorem State.setBank_output (s : State) (t : Table) : (s.setBank t).output = s.output := rfl

@[simp] theorem State.setPht_cfg (s : State) (t : Table) : (s.setPht t).cfg = s.cfg := rfl
@[simp] theorem State.setPht_bhr (s : State) (t : Table) : (s.setPht t).bhr = s.bhr := rfl
@[simp] theorem State.setPht_bank (s : State) (t : Table) : (s.setPht t).bank = s.bank := rfl
@[simp] theorem State.setPht_pht (s : State) (t : Table) : (s.setPht t).pht = t := rfl
@[simp] theorem State.setPht_ctr (s : State) (t : Table) : (s.setPht t).ctr = s.ctr := rfl
@[simp] theorem State.setPht_pend (s : State) (t : Table) : (s.setPht t).pend = s.pend := rfl
@[simp] theorem State.setPht_paddr (s : State) (t : Table) : (s.setPht t).paddr = s.paddr := rfl
@[simp] theorem State.setPht_fault (s : State) (t : Table) : (s.setPht t).fault = s.fault := rfl
@[simp] theorem State.setPht_fcode (s : State) (t : Table) : (s.setPht t).fcode = s.fcode := rfl
@[simp] theorem State.setPht_fcmd (s : State) (t : Table) : (s.setPht t).fcmd = s.fcmd := rfl
@[simp] theorem State.setPht_input (s : State) (t : Table) : (s.setPht t).input = s.input := rfl
@[simp] theorem State.setPht_output (s : State) (t : Table) : (s.setPht t).output = s.output := rfl

@[simp] theorem State.setCtr_cfg (s : State) (v : Bits) : (s.setCtr v).cfg = s.cfg := rfl
@[simp] theorem State.setCtr_bhr (s : State) (v : Bits) : (s.setCtr v).bhr = s.bhr := rfl
@[simp] theorem State.setCtr_bank (s : State) (v : Bits) : (s.setCtr v).bank = s.bank := rfl
@[simp] theorem State.setCtr_pht (s : State) (v : Bits) : (s.setCtr v).pht = s.pht := rfl
@[simp] theorem State.setCtr_ctr (s : State) (v : Bits) : (s.setCtr v).ctr = v := rfl
@[simp] theorem State.setCtr_pend (s : State) (v : Bits) : (s.setCtr v).pend = s.pend := rfl
@[simp] theorem State.setCtr_paddr (s : State) (v : Bits) : (s.setCtr v).paddr = s.paddr := rfl
@[simp] theorem State.setCtr_fault (s : State) (v : Bits) : (s.setCtr v).fault = s.fault := rfl
@[simp] theorem State.setCtr_fcode (s : State) (v : Bits) : (s.setCtr v).fcode = s.fcode := rfl
@[simp] theorem State.setCtr_fcmd (s : State) (v : Bits) : (s.setCtr v).fcmd = s.fcmd := rfl
@[simp] theorem State.setCtr_input (s : State) (v : Bits) : (s.setCtr v).input = s.input := rfl
@[simp] theorem State.setCtr_output (s : State) (v : Bits) : (s.setCtr v).output = s.output := rfl

@[simp] theorem State.setPend_cfg (s : State) (b : Bool) : (s.setPend b).cfg = s.cfg := rfl
@[simp] theorem State.setPend_bhr (s : State) (b : Bool) : (s.setPend b).bhr = s.bhr := rfl
@[simp] theorem State.setPend_bank (s : State) (b : Bool) : (s.setPend b).bank = s.bank := rfl
@[simp] theorem State.setPend_pht (s : State) (b : Bool) : (s.setPend b).pht = s.pht := rfl
@[simp] theorem State.setPend_ctr (s : State) (b : Bool) : (s.setPend b).ctr = s.ctr := rfl
@[simp] theorem State.setPend_pend (s : State) (b : Bool) : (s.setPend b).pend = b := rfl
@[simp] theorem State.setPend_paddr (s : State) (b : Bool) : (s.setPend b).paddr = s.paddr := rfl
@[simp] theorem State.setPend_fault (s : State) (b : Bool) : (s.setPend b).fault = s.fault := rfl
@[simp] theorem State.setPend_fcode (s : State) (b : Bool) : (s.setPend b).fcode = s.fcode := rfl
@[simp] theorem State.setPend_fcmd (s : State) (b : Bool) : (s.setPend b).fcmd = s.fcmd := rfl
@[simp] theorem State.setPend_input (s : State) (b : Bool) : (s.setPend b).input = s.input := rfl
@[simp] theorem State.setPend_output (s : State) (b : Bool) : (s.setPend b).output = s.output := rfl

@[simp] theorem State.setPaddr_cfg (s : State) (a : Bits) : (s.setPaddr a).cfg = s.cfg := rfl
@[simp] theorem State.setPaddr_bhr (s : State) (a : Bits) : (s.setPaddr a).bhr = s.bhr := rfl
@[simp] theorem State.setPaddr_bank (s : State) (a : Bits) : (s.setPaddr a).bank = s.bank := rfl
@[simp] theorem State.setPaddr_pht (s : State) (a : Bits) : (s.setPaddr a).pht = s.pht := rfl
@[simp] theorem State.setPaddr_ctr (s : State) (a : Bits) : (s.setPaddr a).ctr = s.ctr := rfl
@[simp] theorem State.setPaddr_pend (s : State) (a : Bits) : (s.setPaddr a).pend = s.pend := rfl
@[simp] theorem State.setPaddr_paddr (s : State) (a : Bits) : (s.setPaddr a).paddr = a := rfl
@[simp] theorem State.setPaddr_fault (s : State) (a : Bits) : (s.setPaddr a).fault = s.fault := rfl
@[simp] theorem State.setPaddr_fcode (s : State) (a : Bits) : (s.setPaddr a).fcode = s.fcode := rfl
@[simp] theorem State.setPaddr_fcmd (s : State) (a : Bits) : (s.setPaddr a).fcmd = s.fcmd := rfl
@[simp] theorem State.setPaddr_input (s : State) (a : Bits) : (s.setPaddr a).input = s.input := rfl
@[simp] theorem State.setPaddr_output (s : State) (a : Bits) : (s.setPaddr a).output = s.output := rfl

@[simp] theorem State.setFault_cfg (s : State) (code : BitVec 3) (word : Bits) : (s.setFault code word).cfg = s.cfg := rfl
@[simp] theorem State.setFault_bhr (s : State) (code : BitVec 3) (word : Bits) : (s.setFault code word).bhr = s.bhr := rfl
@[simp] theorem State.setFault_bank (s : State) (code : BitVec 3) (word : Bits) : (s.setFault code word).bank = s.bank := rfl
@[simp] theorem State.setFault_pht (s : State) (code : BitVec 3) (word : Bits) : (s.setFault code word).pht = s.pht := rfl
@[simp] theorem State.setFault_ctr (s : State) (code : BitVec 3) (word : Bits) : (s.setFault code word).ctr = s.ctr := rfl
@[simp] theorem State.setFault_pend (s : State) (code : BitVec 3) (word : Bits) : (s.setFault code word).pend = s.pend := rfl
@[simp] theorem State.setFault_paddr (s : State) (code : BitVec 3) (word : Bits) : (s.setFault code word).paddr = s.paddr := rfl
@[simp] theorem State.setFault_fault (s : State) (code : BitVec 3) (word : Bits) : (s.setFault code word).fault = true := rfl
@[simp] theorem State.setFault_fcode (s : State) (code : BitVec 3) (word : Bits) : (s.setFault code word).fcode = code := rfl
@[simp] theorem State.setFault_fcmd (s : State) (code : BitVec 3) (word : Bits) : (s.setFault code word).fcmd = word := rfl
@[simp] theorem State.setFault_input (s : State) (code : BitVec 3) (word : Bits) : (s.setFault code word).input = s.input := rfl
@[simp] theorem State.setFault_output (s : State) (code : BitVec 3) (word : Bits) : (s.setFault code word).output = s.output := rfl

@[simp] theorem State.setInput_cfg (s : State) (l : List Input) : (s.setInput l).cfg = s.cfg := rfl
@[simp] theorem State.setInput_bhr (s : State) (l : List Input) : (s.setInput l).bhr = s.bhr := rfl
@[simp] theorem State.setInput_bank (s : State) (l : List Input) : (s.setInput l).bank = s.bank := rfl
@[simp] theorem State.setInput_pht (s : State) (l : List Input) : (s.setInput l).pht = s.pht := rfl
@[simp] theorem State.setInput_ctr (s : State) (l : List Input) : (s.setInput l).ctr = s.ctr := rfl
@[simp] theorem State.setInput_pend (s : State) (l : List Input) : (s.setInput l).pend = s.pend := rfl
@[simp] theorem State.setInput_paddr (s : State) (l : List Input) : (s.setInput l).paddr = s.paddr := rfl
@[simp] theorem State.setInput_fault (s : State) (l : List Input) : (s.setInput l).fault = s.fault := rfl
@[simp] theorem State.setInput_fcode (s : State) (l : List Input) : (s.setInput l).fcode = s.fcode := rfl
@[simp] theorem State.setInput_fcmd (s : State) (l : List Input) : (s.setInput l).fcmd = s.fcmd := rfl
@[simp] theorem State.setInput_input (s : State) (l : List Input) : (s.setInput l).input = l := rfl
@[simp] theorem State.setInput_output (s : State) (l : List Input) : (s.setInput l).output = s.output := rfl

@[simp] theorem State.emit_cfg (s : State) (r : Response) : (s.emit r).cfg = s.cfg := rfl
@[simp] theorem State.emit_bhr (s : State) (r : Response) : (s.emit r).bhr = s.bhr := rfl
@[simp] theorem State.emit_bank (s : State) (r : Response) : (s.emit r).bank = s.bank := rfl
@[simp] theorem State.emit_pht (s : State) (r : Response) : (s.emit r).pht = s.pht := rfl
@[simp] theorem State.emit_ctr (s : State) (r : Response) : (s.emit r).ctr = s.ctr := rfl
@[simp] theorem State.emit_pend (s : State) (r : Response) : (s.emit r).pend = s.pend := rfl
@[simp] theorem State.emit_paddr (s : State) (r : Response) : (s.emit r).paddr = s.paddr := rfl
@[simp] theorem State.emit_fault (s : State) (r : Response) : (s.emit r).fault = s.fault := rfl
@[simp] theorem State.emit_fcode (s : State) (r : Response) : (s.emit r).fcode = s.fcode := rfl
@[simp] theorem State.emit_fcmd (s : State) (r : Response) : (s.emit r).fcmd = s.fcmd := rfl
@[simp] theorem State.emit_input (s : State) (r : Response) : (s.emit r).input = s.input := rfl
@[simp] theorem State.emit_output (s : State) (r : Response) : (s.emit r).output = s.output ++ [r] := rfl

@[simp] theorem State.engine_cfg (s : State) : s.engine.cfg = s.cfg := rfl
@[simp] theorem State.engine_bhr (s : State) : s.engine.bhr = s.bhr := rfl
@[simp] theorem State.engine_bank (s : State) : s.engine.bank = s.bank := rfl
@[simp] theorem State.engine_pht (s : State) : s.engine.pht = s.pht := rfl
@[simp] theorem State.engine_ctr (s : State) : s.engine.ctr = s.ctr := rfl
@[simp] theorem State.engine_pend (s : State) : s.engine.pend = s.pend := rfl
@[simp] theorem State.engine_paddr (s : State) : s.engine.paddr = s.paddr := rfl
@[simp] theorem State.engine_fault (s : State) : s.engine.fault = s.fault := rfl
@[simp] theorem State.engine_fcode (s : State) : s.engine.fcode = s.fcode := rfl
@[simp] theorem State.engine_fcmd (s : State) : s.engine.fcmd = s.fcmd := rfl
@[simp] theorem State.engine_input (s : State) : s.engine.input = [] := rfl
@[simp] theorem State.engine_output (s : State) : s.engine.output = [] := rfl

/-- The engine state of R17 ignores what is presented. -/
@[simp] theorem State.engine_setInput (s : State) (l : List Input) : (s.setInput l).engine = s.engine := rfl

/-- The engine state of R17 ignores what was answered. -/
@[simp] theorem State.engine_emit (s : State) (r : Response) : (s.emit r).engine = s.engine := rfl

@[simp] theorem State.setInput_self (s : State) : s.setInput s.input = s := rfl

@[simp] theorem State.setInput_setInput (s : State) (l l' : List Input) : (s.setInput l).setInput l' = s.setInput l' := rfl

theorem State.emit_setInput (s : State) (r : Response) (l : List Input) :
    (s.setInput l).emit r = (s.emit r).setInput l := rfl

/-- Two states are the same engine state exactly where they agree on every field of R17. -/
theorem State.engine_eq_iff (s t : State) :
    s.engine = t.engine ↔ s.cfg = t.cfg ∧ s.bhr = t.bhr ∧ s.bank = t.bank ∧ s.pht = t.pht ∧ s.ctr = t.ctr
      ∧ s.pend = t.pend ∧ s.paddr = t.paddr ∧ s.fault = t.fault ∧ s.fcode = t.fcode ∧ s.fcmd = t.fcmd := by
  simp [State.engine]

/-- A state is its engine state with its input and its output. -/
theorem State.ext_engine {s t : State} (he : s.engine = t.engine) (hi : s.input = t.input)
    (ho : s.output = t.output) : s = t := by
  cases s; cases t; simp_all [State.engine]

end Sys2Proof.Machine
end

