-- ==== Sys2Proof/Laws/Table.lean ====
section
/-!
SUPPORT. Laws of the tables that hold BANK and PHT: a read after a write, independence of keys, and that every table
operation keeps the canonical form.
-/

namespace Sys2Proof.Machine

@[simp] theorem Table.get_nil (k : Bits) : Table.get k [] = none := rfl

theorem Table.get_cons (k k' v : Bits) (t : Table) :
    Table.get k ((k', v) :: t) = if k = k' then some v else Table.get k t := rfl

@[simp] theorem Table.get_put_self (k v : Bits) (t : Table) : Table.get k (Table.put k v t) = some v := by
  induction t with
  | nil => simp [Table.put, Table.get]
  | cons e t ih =>
    obtain ⟨k', v'⟩ := e
    simp only [Table.put]
    split
    · simp [Table.get]
    · split
      · simp [Table.get]
      · simp_all [Table.get]

/-- A write to one key leaves every other key alone (10_state.md R23; 40_primitives.md R77). -/
theorem Table.get_put_ne {k k' : Bits} (h : k' ≠ k) (v : Bits) (t : Table) :
    Table.get k' (Table.put k v t) = Table.get k' t := by
  induction t with
  | nil => simp [Table.put, Table.get, h]
  | cons e t ih =>
    obtain ⟨k₂, v₂⟩ := e
    simp only [Table.put]
    split
    · subst_vars; simp [Table.get, h]
    · split
      · simp [Table.get, h]
      · simp [Table.get, ih]

theorem Table.get_put (k k' v : Bits) (t : Table) :
    Table.get k' (Table.put k v t) = if k' = k then some v else Table.get k' t := by
  split
  · subst_vars; simp
  · exact Table.get_put_ne ‹_› v t

theorem Table.get_ensure (k k' v : Bits) (t : Table) :
    Table.get k' (Table.ensure k v t) = if k' = k then some ((Table.get k t).getD v) else Table.get k' t := by
  unfold Table.ensure
  split
  · next h => rw [Table.get_put, h]; rfl
  · next h => split <;> simp_all

@[simp] theorem Table.get_ensure_self (k v : Bits) (t : Table) :
    Table.get k (Table.ensure k v t) = some ((Table.get k t).getD v) := by simp [Table.get_ensure]

/-- The canonical form as a proposition. -/
theorem Table.wf_iff (kw vw : Nat) (t : Table) :
    Table.wf kw vw t = true ↔
      (∀ e ∈ t, e.1.length = kw ∧ e.2.length = vw) ∧ (Table.keys t).Pairwise (fun a b => a.val < b.val) := by
  simp [Table.wf]

theorem Table.wf_nil (kw vw : Nat) : Table.wf kw vw [] = true := by simp [Table.wf, Table.keys]

theorem Table.wf_cons {kw vw : Nat} {k v : Bits} {t : Table} :
    Table.wf kw vw ((k, v) :: t) = true ↔
      (k.length = kw ∧ v.length = vw ∧ ∀ k' ∈ Table.keys t, k.val < k'.val) ∧ Table.wf kw vw t = true := by
  simp only [Table.wf_iff, Table.keys, List.forall_mem_cons, List.map_cons, List.pairwise_cons]
  tauto

theorem Table.mem_keys_put {k v x : Bits} {t : Table} (h : x ∈ Table.keys (Table.put k v t)) :
    x = k ∨ x ∈ Table.keys t := by
  induction t with
  | nil => simpa [Table.put, Table.keys] using h
  | cons e t ih =>
    obtain ⟨k', v'⟩ := e
    simp only [Table.put] at h
    split at h
    · simp only [Table.keys, List.map_cons, List.mem_cons] at h ⊢; tauto
    · split at h
      · simp only [Table.keys, List.map_cons, List.mem_cons] at h ⊢; tauto
      · simp only [Table.keys, List.map_cons, List.mem_cons] at h ih ⊢
        rcases h with h | h
        · exact .inr (.inl h)
        · rcases ih h with h | h
          · exact .inl h
          · exact .inr (.inr h)

/-- A write of a key and a value of the table's widths keeps the canonical form. -/
theorem Table.wf_put {kw vw : Nat} {k v : Bits} {t : Table} (hk : k.length = kw) (hv : v.length = vw)
    (h : Table.wf kw vw t = true) : Table.wf kw vw (Table.put k v t) = true := by
  induction t with
  | nil => simp [Table.put, Table.wf, Table.keys, hk, hv]
  | cons e t ih =>
    obtain ⟨k', v'⟩ := e
    obtain ⟨⟨hk', hv', hlt⟩, ht⟩ := Table.wf_cons.1 h
    simp only [Table.put]
    split
    · subst_vars; exact Table.wf_cons.2 ⟨⟨rfl, rfl, hlt⟩, ht⟩
    · split
      · next hne hval =>
        refine Table.wf_cons.2 ⟨⟨hk, hv, ?_⟩, h⟩
        intro x hx
        simp only [Table.keys, List.map_cons, List.mem_cons] at hx
        rcases hx with rfl | hx
        · exact hval
        · exact Nat.lt_trans hval (hlt x hx)
      · next hne hval =>
        refine Table.wf_cons.2 ⟨⟨hk', hv', ?_⟩, ih ht⟩
        intro x hx
        rcases Table.mem_keys_put hx with rfl | hx
        · refine Nat.lt_of_le_of_ne (Nat.le_of_not_lt hval) fun he => hne ?_
          exact (Bits.val_inj (hk'.trans hk.symm) he).symm
        · exact hlt x hx

/-- Writing a default to an absent key keeps the canonical form. -/
theorem Table.wf_ensure {kw vw : Nat} {k v : Bits} {t : Table} (hk : k.length = kw) (hv : v.length = vw)
    (h : Table.wf kw vw t = true) : Table.wf kw vw (Table.ensure k v t) = true := by
  unfold Table.ensure
  split
  · exact Table.wf_put hk hv h
  · exact h

/-- Every present value has the table's value width. -/
theorem Table.length_of_get {kw vw : Nat} {k v : Bits} {t : Table} (h : Table.wf kw vw t = true)
    (hg : Table.get k t = some v) : k.length = kw ∧ v.length = vw := by
  induction t with
  | nil => simp at hg
  | cons e t ih =>
    obtain ⟨k', v'⟩ := e
    obtain ⟨⟨hk', hv', -⟩, ht⟩ := Table.wf_cons.1 h
    rw [Table.get_cons] at hg
    split at hg
    · simp_all
    · exact ih ht hg

theorem Table.mem_of_get {k v : Bits} {t : Table} (hg : Table.get k t = some v) : (k, v) ∈ t := by
  induction t with
  | nil => simp at hg
  | cons e t ih =>
    obtain ⟨k', v'⟩ := e
    rw [Table.get_cons] at hg
    split at hg
    · simp_all
    · exact List.mem_cons_of_mem _ (ih hg)

/-- In a canonical table the listed pairs are exactly the present keys with their values. -/
theorem Table.mem_iff_get {kw vw : Nat} {t : Table} (h : Table.wf kw vw t = true) (k v : Bits) :
    (k, v) ∈ t ↔ Table.get k t = some v := by
  refine ⟨fun hm => ?_, Table.mem_of_get⟩
  induction t with
  | nil => simp at hm
  | cons e t ih =>
    obtain ⟨k', v'⟩ := e
    obtain ⟨⟨-, -, hlt⟩, ht⟩ := Table.wf_cons.1 h
    rw [Table.get_cons]
    rcases List.mem_cons.1 hm with he | hm
    · simp_all
    · have hk : k ∈ Table.keys t := List.mem_map.2 ⟨_, hm, rfl⟩
      have hne : k ≠ k' := fun he => by have := hlt k hk; subst he; omega
      rw [if_neg hne]
      exact ih ht hm

/-- Writing the value a key already holds changes nothing. -/
theorem Table.put_of_get {kw vw : Nat} {k v : Bits} {t : Table} (h : Table.wf kw vw t = true)
    (hg : Table.get k t = some v) : Table.put k v t = t := by
  induction t with
  | nil => simp at hg
  | cons e t ih =>
    obtain ⟨k', v'⟩ := e
    obtain ⟨⟨-, -, hlt⟩, ht⟩ := Table.wf_cons.1 h
    rw [Table.get_cons] at hg
    simp only [Table.put]
    split at hg
    · simp_all
    · next hne =>
      have hk : k ∈ Table.keys t := List.mem_map.2 ⟨_, Table.mem_of_get hg, rfl⟩
      have := hlt k hk
      rw [if_neg hne, if_neg (by omega), ih ht hg]

theorem Table.ensure_of_get {k v w : Bits} {t : Table} (hg : Table.get k t = some w) : Table.ensure k v t = t := by
  simp [Table.ensure, hg]

end Sys2Proof.Machine
end

