-- ==== Sys2Proof/Laws/Ops.lean ====
section
/-!
SUPPORT. What each shared operation can do, said once: the primitives of 40_primitives.md, the memory form they keep,
and the frame every command runs in.
-/

namespace Sys2Proof.Machine

/-! Shift registers, counters, projection, hash. -/

@[simp] theorem length_srInsert (b : Bool) (v : Bits) : (srInsert b v).length = v.length := by
  cases v <;> simp [srInsert]

theorem srLoad_eq_ok {L : Nat} {v w : Bits} : srLoad L v = .ok w ↔ v.length = L ∧ v = w := by
  unfold srLoad; split <;> simp_all

@[simp] theorem length_sat (c : Bits) (b : Bool) : (sat c b).length = c.length := by
  unfold sat; split <;> split <;> simp

/-- Sat in values: up by one or clamped at the top, down by one or clamped at 0 (R79). -/
theorem val_sat (c : Bits) (b : Bool) :
    (sat c b).val = if b then min (c.val + 1) (2 ^ c.length - 1) else c.val - 1 := by
  have h := Bits.val_lt c
  unfold sat
  cases b
  · simp only [Bool.false_eq_true, if_false]
    split
    · omega
    · rw [Bits.val_ofNat (by omega)]
  · simp only [if_true]
    split
    · omega
    · rw [Bits.val_ofNat (by omega)]; omega

theorem length_proj {W : Nat} {a : Bits} (h : W ≤ a.length) : (proj W a).length = W := by
  simp [proj]; omega

theorem proj_self {W : Nat} {a : Bits} (h : a.length = W) : proj W a = a := by simp [proj, h]

@[simp] theorem length_hashFrom (K p : Nat) (h a : Bits) : (hashFrom K p h a).length = h.length := by
  induction a generalizing p h with
  | nil => rfl
  | cons b a ih => simp [hashFrom, ih]

@[simp] theorem length_hashFold (K : Nat) (a : Bits) : (hashFold K a).length = K := by simp [hashFold]

/-! Tables. -/

/-- Of two writes to one key the second counts. -/
theorem Table.put_put (k v w : Bits) (t : Table) : Table.put k v (Table.put k w t) = Table.put k v t := by
  induction t with
  | nil => simp [Table.put]
  | cons e t ih =>
    obtain ⟨k', v'⟩ := e
    simp only [Table.put]
    split
    · simp [Table.put]
    · split
      · simp [Table.put]
      · simp_all [Table.put]

theorem Table.put_ensure (k v w : Bits) (t : Table) : Table.put k v (Table.ensure k w t) = Table.put k v t := by
  unfold Table.ensure
  split
  · exact Table.put_put k v w t
  · rfl

@[simp] theorem State.setBank_self (s : State) : s.setBank s.bank = s := rfl

@[simp] theorem State.setPht_self (s : State) : s.setPht s.pht = s := rfl

/-! The history bank. -/

/-- BankRead answers the register, `0^H` if absent, and leaves it present; nothing else changes (R74). -/
theorem bankRead_eq (k : Bits) (s : State) :
    bankRead k s = ((Table.get k s.bank).getD (Bits.zeros s.cfg.h),
      s.setBank (Table.ensure k (Bits.zeros s.cfg.h) s.bank)) := by
  unfold bankRead Table.ensure
  split <;> simp_all

/-- BankInsert writes the shifted register, shifted from `0^H` if absent; nothing else changes (R75). -/
theorem bankInsert_eq (k : Bits) (b : Bool) (s : State) :
    bankInsert k b s =
      s.setBank (Table.put k (srInsert b ((Table.get k s.bank).getD (Bits.zeros s.cfg.h))) s.bank) := by
  simp only [bankInsert, bankRead_eq, State.setBank_bank, Table.put_ensure]
  rfl

theorem bankWrite_eq_ok {k v : Bits} {s t : State} :
    bankWrite k v s = .ok t ↔ v.length = s.cfg.h ∧ t = s.setBank (Table.put k v s.bank) := by
  unfold bankWrite; split <;> simp_all [eq_comm]

/-! The history table. -/

theorem phtGet_eq_ok {k v : Bits} {s : State} :
    phtGet k s = .ok v ↔ k.length = s.cfg.phtKeyWidth ∧ Table.get k s.pht = some v := by
  unfold phtGet
  split
  · split <;> simp_all
  · simp_all

theorem phtPut_eq_ok {k v : Bits} {s t : State} :
    phtPut k v s = .ok t ↔
      (k.length = s.cfg.phtKeyWidth ∧ v.length = s.cfg.s) ∧ t = s.setPht (Table.put k v s.pht) := by
  unfold phtPut; split <;> simp_all [eq_comm]

theorem ctrLoad_eq_ok {v : Bits} {s t : State} :
    ctrLoad v s = .ok t ↔ v.length = s.cfg.s ∧ t = s.setCtr v := by
  unfold ctrLoad srLoad
  by_cases h : v.length = s.cfg.s <;> simp [h, eq_comm]

/-! The memory form is kept by every memory operation, and reset has it. -/

theorem Memory.wf_iff (s : State) :
    Memory.wf s = true ↔
      Table.wf s.cfg.bankKeyWidth s.cfg.h s.bank = true
      ∧ (s.cfg.variant.banked = false → s.bank = [])
      ∧ Table.wf s.cfg.phtKeyWidth s.cfg.s s.pht = true := by
  unfold Memory.wf
  cases s.cfg.variant.banked <;> simp [and_assoc]

/-- BankRead keeps the memory form, for a key of the bank's width in a variant with a bank. -/
theorem Memory.wf_bankRead {k : Bits} {s : State} (hb : s.cfg.variant.banked = true)
    (hk : k.length = s.cfg.bankKeyWidth) (h : Memory.wf s = true) : Memory.wf (bankRead k s).2 = true := by
  rw [Memory.wf_iff] at h ⊢
  rw [bankRead_eq]
  exact ⟨Table.wf_ensure hk (by simp) h.1, by simp [hb], h.2.2⟩

theorem length_bank_getD {k : Bits} {s : State} (h : Memory.wf s = true) :
    ((Table.get k s.bank).getD (Bits.zeros s.cfg.h)).length = s.cfg.h := by
  cases hg : Table.get k s.bank with
  | none => simp
  | some v => exact (Table.length_of_get ((Memory.wf_iff s).1 h).1 hg).2

theorem length_pht_getD {k : Bits} {s : State} (h : Memory.wf s = true) :
    ((Table.get k s.pht).getD (Bits.zeros s.cfg.s)).length = s.cfg.s := by
  cases hg : Table.get k s.pht with
  | none => simp
  | some v => exact (Table.length_of_get ((Memory.wf_iff s).1 h).2.2 hg).2

/-- BankInsert keeps the memory form. -/
theorem Memory.wf_bankInsert {k : Bits} {b : Bool} {s : State} (hb : s.cfg.variant.banked = true)
    (hk : k.length = s.cfg.bankKeyWidth) (h : Memory.wf s = true) : Memory.wf (bankInsert k b s) = true := by
  have hv := length_bank_getD (k := k) h
  rw [Memory.wf_iff] at h ⊢
  rw [bankInsert_eq]
  exact ⟨Table.wf_put hk (by simpa using hv) h.1, by simp [hb], h.2.2⟩

/-- BankWrite keeps the memory form. -/
theorem Memory.wf_bankWrite {k v : Bits} {s t : State} (hb : s.cfg.variant.banked = true)
    (hk : k.length = s.cfg.bankKeyWidth) (h : Memory.wf s = true) (ht : bankWrite k v s = .ok t) :
    Memory.wf t = true := by
  obtain ⟨hv, rfl⟩ := bankWrite_eq_ok.1 ht
  rw [Memory.wf_iff] at h ⊢
  exact ⟨Table.wf_put hk hv h.1, by simp [hb], h.2.2⟩

/-- PhtEnsure keeps the memory form, for a key of the table's width. -/
theorem Memory.wf_phtEnsure {k : Bits} {s : State} (hk : k.length = s.cfg.phtKeyWidth) (h : Memory.wf s = true) :
    Memory.wf (phtEnsure k s) = true := by
  rw [Memory.wf_iff] at h ⊢
  exact ⟨h.1, h.2.1, Table.wf_ensure hk (Bits.length_zeros _) h.2.2⟩

/-- PhtPut keeps the memory form. -/
theorem Memory.wf_phtPut {k v : Bits} {s t : State} (h : Memory.wf s = true) (ht : phtPut k v s = .ok t) :
    Memory.wf t = true := by
  obtain ⟨⟨hk, hv⟩, rfl⟩ := phtPut_eq_ok.1 ht
  rw [Memory.wf_iff] at h ⊢
  exact ⟨h.1, h.2.1, Table.wf_put hk hv h.2.2⟩

/-- Reset has the memory form, under every configuration. -/
theorem Memory.wf_resetWith (c : Cfg) : Memory.wf (State.resetWith c) = true := by
  rw [Memory.wf_iff]
  exact ⟨Table.wf_nil _ _, fun _ => rfl, Table.wf_nil _ _⟩

theorem Memory.wf_reset : Memory.wf State.reset = true := Memory.wf_resetWith _

/-! The frame of a command. -/

@[simp] theorem engine_respond (pred refused : Bool) (snap : Option Snapshot) (s : State) :
    (respond pred refused snap s).engine = s.engine := rfl

@[simp] theorem respond_cfg (pred refused : Bool) (snap : Option Snapshot) (s : State) : (respond pred refused snap s).cfg = s.cfg := rfl
@[simp] theorem respond_bhr (pred refused : Bool) (snap : Option Snapshot) (s : State) : (respond pred refused snap s).bhr = s.bhr := rfl
@[simp] theorem respond_bank (pred refused : Bool) (snap : Option Snapshot) (s : State) : (respond pred refused snap s).bank = s.bank := rfl
@[simp] theorem respond_pht (pred refused : Bool) (snap : Option Snapshot) (s : State) : (respond pred refused snap s).pht = s.pht := rfl
@[simp] theorem respond_ctr (pred refused : Bool) (snap : Option Snapshot) (s : State) : (respond pred refused snap s).ctr = s.ctr := rfl
@[simp] theorem respond_pend (pred refused : Bool) (snap : Option Snapshot) (s : State) : (respond pred refused snap s).pend = s.pend := rfl
@[simp] theorem respond_paddr (pred refused : Bool) (snap : Option Snapshot) (s : State) : (respond pred refused snap s).paddr = s.paddr := rfl
@[simp] theorem respond_fault (pred refused : Bool) (snap : Option Snapshot) (s : State) : (respond pred refused snap s).fault = s.fault := rfl
@[simp] theorem respond_fcode (pred refused : Bool) (snap : Option Snapshot) (s : State) : (respond pred refused snap s).fcode = s.fcode := rfl
@[simp] theorem respond_fcmd (pred refused : Bool) (snap : Option Snapshot) (s : State) : (respond pred refused snap s).fcmd = s.fcmd := rfl
@[simp] theorem respond_input (pred refused : Bool) (snap : Option Snapshot) (s : State) : (respond pred refused snap s).input = s.input := rfl
@[simp] theorem respond_output (pred refused : Bool) (snap : Option Snapshot) (s : State) : (respond pred refused snap s).output = s.output ++ [⟨responseWord pred s.pend s.fault s.fcode refused, snap⟩] := rfl

/-- A refused command changes no state (60_exceptions.md R132). -/
@[simp] theorem engine_refuse (s : State) : (refuse s).engine = s.engine := rfl

@[simp] theorem refuse_cfg (s : State) : (refuse s).cfg = s.cfg := rfl
@[simp] theorem refuse_bhr (s : State) : (refuse s).bhr = s.bhr := rfl
@[simp] theorem refuse_bank (s : State) : (refuse s).bank = s.bank := rfl
@[simp] theorem refuse_pht (s : State) : (refuse s).pht = s.pht := rfl
@[simp] theorem refuse_ctr (s : State) : (refuse s).ctr = s.ctr := rfl
@[simp] theorem refuse_pend (s : State) : (refuse s).pend = s.pend := rfl
@[simp] theorem refuse_paddr (s : State) : (refuse s).paddr = s.paddr := rfl
@[simp] theorem refuse_fault (s : State) : (refuse s).fault = s.fault := rfl
@[simp] theorem refuse_fcode (s : State) : (refuse s).fcode = s.fcode := rfl
@[simp] theorem refuse_fcmd (s : State) : (refuse s).fcmd = s.fcmd := rfl
@[simp] theorem refuse_input (s : State) : (refuse s).input = s.input := rfl
@[simp] theorem refuse_output (s : State) : (refuse s).output = s.output ++ [⟨responseWord false s.pend s.fault s.fcode true, none⟩] := rfl

@[simp] theorem raiseFault_cfg (f : EngineFault) (word : Bits) (s : State) : (raiseFault f word s).cfg = s.cfg := rfl
@[simp] theorem raiseFault_bhr (f : EngineFault) (word : Bits) (s : State) : (raiseFault f word s).bhr = s.bhr := rfl
@[simp] theorem raiseFault_bank (f : EngineFault) (word : Bits) (s : State) : (raiseFault f word s).bank = s.bank := rfl
@[simp] theorem raiseFault_pht (f : EngineFault) (word : Bits) (s : State) : (raiseFault f word s).pht = s.pht := rfl
@[simp] theorem raiseFault_ctr (f : EngineFault) (word : Bits) (s : State) : (raiseFault f word s).ctr = s.ctr := rfl
@[simp] theorem raiseFault_pend (f : EngineFault) (word : Bits) (s : State) : (raiseFault f word s).pend = s.pend := rfl
@[simp] theorem raiseFault_paddr (f : EngineFault) (word : Bits) (s : State) : (raiseFault f word s).paddr = s.paddr := rfl
@[simp] theorem raiseFault_fault (f : EngineFault) (word : Bits) (s : State) : (raiseFault f word s).fault = true := rfl
@[simp] theorem raiseFault_fcode (f : EngineFault) (word : Bits) (s : State) : (raiseFault f word s).fcode = f.code := rfl
@[simp] theorem raiseFault_fcmd (f : EngineFault) (word : Bits) (s : State) : (raiseFault f word s).fcmd = word := rfl
@[simp] theorem raiseFault_input (f : EngineFault) (word : Bits) (s : State) : (raiseFault f word s).input = s.input := rfl
@[simp] theorem raiseFault_output (f : EngineFault) (word : Bits) (s : State) : (raiseFault f word s).output = s.output ++ [⟨responseWord false s.pend true f.code false, none⟩] := rfl

/-- A fault changes the fault record alone (60_exceptions.md R127, R131). -/
@[simp] theorem engine_raiseFault (f : EngineFault) (word : Bits) (s : State) :
    (raiseFault f word s).engine = (s.setFault f.code word).engine := rfl

/-- Everything one command can do: it is refused in the fault state; or its body completes and it answers; or its body
raises, and the fault is recorded on the state the command found. -/
theorem runCommand_cases (word : Bits) (body : State → Except EngineFault (State × Bool)) (s : State) :
    (s.fault = true ∧ runCommand word body s = refuse s)
    ∨ (s.fault = false ∧ ∃ t pred, body s = .ok (t, pred) ∧ runCommand word body s = respond pred false none t)
    ∨ (s.fault = false ∧ ∃ f, body s = .error f ∧ runCommand word body s = raiseFault f word s) := by
  unfold runCommand
  cases s.fault with
  | true => exact .inl ⟨rfl, rfl⟩
  | false =>
    cases h : body s with
    | ok r => exact .inr (.inl ⟨rfl, r.1, r.2, rfl, rfl⟩)
    | error f => exact .inr (.inr ⟨rfl, f, rfl, rfl⟩)

theorem runCommand_of_fault {word : Bits} {body : State → Except EngineFault (State × Bool)} {s : State}
    (h : s.fault = true) : runCommand word body s = refuse s := by simp [runCommand, h]

theorem runCommand_of_ok {word : Bits} {body : State → Except EngineFault (State × Bool)} {s t : State} {pred : Bool}
    (h : s.fault = false) (hb : body s = .ok (t, pred)) : runCommand word body s = respond pred false none t := by
  simp [runCommand, h, hb]

theorem runCommand_of_error {word : Bits} {body : State → Except EngineFault (State × Bool)} {s : State}
    {f : EngineFault} (h : s.fault = false) (hb : body s = .error f) :
    runCommand word body s = raiseFault f word s := by
  simp [runCommand, h, hb]

/-! The response word carries its fields (30_encoding.md R59). -/

theorem responseWord_fields (pred pend fault : Bool) (fcode : BitVec 3) (refused : Bool) (snap : Option Snapshot) :
    let r : Response := ⟨responseWord pred pend fault fcode refused, snap⟩
    r.pred = pred ∧ r.pend = pend ∧ r.fault = fault ∧ r.fcode = fcode ∧ r.refused = refused := by
  revert pred pend fault fcode refused
  simp only [Response.pred, Response.pend, Response.fault, Response.fcode, Response.refused]
  decide

end Sys2Proof.Machine
end

