-- ==== Sys2Proof/Laws/Indexer.lean ====
section
/-!
SUPPORT. What the indexer computes and what it changes (41_indexing.md R92, R93, R107).
-/

namespace Sys2Proof.Machine

theorem length_histKey {c : Cfg} {a : Bits} (h : a.length = c.n) : (histKey c a).length = c.bankKeyWidth := by
  unfold histKey Cfg.bankKeyWidth
  cases c.variant <;> simp [proj_self, h]

/-- Index yields exactly KP bits (R92). -/
theorem length_indexKey {c : Cfg} {a v : Bits} (h : a.length = c.n) (hv : v.length = c.h) :
    (indexKey c a v).length = c.phtKeyWidth := by
  unfold indexKey Cfg.phtKeyWidth
  cases c.variant <;> simp [h, hv]

/-- The bank after the indexer has read the register of address `a`. -/
def State.bankAfterRead (s : State) (a : Bits) : Table :=
  match histSel s.cfg a with
  | .bhr => s.bank
  | .bank k => Table.ensure k (Bits.zeros s.cfg.h) s.bank

/-- The bank after a bit is shifted into the register of address `a`. -/
def State.bankAfterShift (s : State) (a : Bits) (b : Bool) : Table :=
  match histSel s.cfg a with
  | .bhr => s.bank
  | .bank k => Table.put k (srInsert b (s.histContent (.bank k))) s.bank

/-- BHR after a bit is shifted into the register of address `a`. -/
def State.bhrAfterShift (s : State) (a : Bits) (b : Bool) : Bits :=
  match histSel s.cfg a with
  | .bhr => srInsert b s.bhr
  | .bank _ => s.bhr

/-- Index answers the key of the current history; the only state it changes is the materialization of one bank register
(R92, R107). -/
theorem index_eq (a : Bits) (s : State) : index a s = (s.indexOf a, s.setBank (s.bankAfterRead a)) := by
  unfold index histVal State.indexOf State.bankAfterRead State.histContent
  cases histSel s.cfg a with
  | bhr => rfl
  | bank k => simp [readHist, bankRead_eq]

theorem insertHist_eq (a : Bits) (b : Bool) (s : State) :
    insertHist b (histSel s.cfg a) s = (s.setBank (s.bankAfterShift a b)).setBhr (s.bhrAfterShift a b) := by
  unfold State.bankAfterShift State.bhrAfterShift State.histContent
  cases histSel s.cfg a with
  | bhr => rfl
  | bank k => simp [insertHist, bankInsert_eq]; rfl

theorem histSel_cases (c : Cfg) (a : Bits) :
    (c.variant.banked = false ∧ histSel c a = .bhr)
    ∨ (c.variant.banked = true ∧ histSel c a = .bank (histKey c a)) := by
  unfold histSel
  cases c.variant.banked <;> simp

theorem length_histContent {s : State} {a : Bits} (hm : Memory.wf s = true) (hb : s.bhr.length = s.cfg.bhrWidth) :
    (s.histContent (histSel s.cfg a)).length = s.cfg.h := by
  rcases histSel_cases s.cfg a with ⟨h, e⟩ | ⟨-, e⟩ <;> rw [e]
  · simpa [State.histContent, Cfg.bhrWidth, h] using hb
  · exact length_bank_getD hm

theorem length_indexOf {s : State} {a : Bits} (hm : Memory.wf s = true) (hb : s.bhr.length = s.cfg.bhrWidth)
    (ha : a.length = s.cfg.n) : (s.indexOf a).length = s.cfg.phtKeyWidth :=
  length_indexKey ha (length_histContent hm hb)

theorem length_counterAt {s : State} {k : Bits} (hm : Memory.wf s = true) : (s.counterAt k).length = s.cfg.s :=
  length_pht_getD hm

theorem wf_bankAfterRead {s : State} {a : Bits} (hm : Memory.wf s = true) (ha : a.length = s.cfg.n) :
    Memory.wf (s.setBank (s.bankAfterRead a)) = true := by
  unfold State.bankAfterRead
  rcases histSel_cases s.cfg a with ⟨-, e⟩ | ⟨h, e⟩ <;> rw [e]
  · exact hm
  · simpa [bankRead_eq] using Memory.wf_bankRead h (length_histKey ha) hm

theorem wf_bankAfterShift {s : State} {a : Bits} {b : Bool} (hm : Memory.wf s = true) (ha : a.length = s.cfg.n) :
    Memory.wf (s.setBank (s.bankAfterShift a b)) = true := by
  unfold State.bankAfterShift
  rcases histSel_cases s.cfg a with ⟨-, e⟩ | ⟨h, e⟩ <;> rw [e]
  · exact hm
  · simpa [bankInsert_eq, State.histContent] using Memory.wf_bankInsert (b := b) h (length_histKey ha) hm

end Sys2Proof.Machine
end

