-- ==== Sys2Proof/Laws/Commands.lean ====
section
/-!
SUPPORT. What the bodies of PREDICT and UPDATE do, said once, and everything a step can do.
-/

namespace Sys2Proof.Machine

/-- The state PREDICT a leaves, its response apart (42_operations.md R109). -/
def State.afterPredict (s : State) (a : Bits) : State :=
  { s with
    bank := s.bankAfterRead a
    pht := Table.ensure (s.indexOf a) (Bits.zeros s.cfg.s) s.pht
    ctr := s.counterAt (s.indexOf a)
    pend := true
    paddr := a }

/-- The state UPDATE a, r leaves, its response apart (42_operations.md R114). -/
def State.afterUpdate (s : State) (a : Bits) (r : BranchResult) : State :=
  { s with
    bhr := s.bhrAfterShift a r.bit
    bank := s.bankAfterShift a r.bit
    pht := Table.put (s.indexOf a) (sat s.ctr r.bit) s.pht
    ctr := sat s.ctr r.bit
    pend := false }

@[simp] theorem State.afterPredict_cfg (s : State) (a : Bits) : (s.afterPredict a).cfg = s.cfg := rfl
@[simp] theorem State.afterPredict_bhr (s : State) (a : Bits) : (s.afterPredict a).bhr = s.bhr := rfl
@[simp] theorem State.afterPredict_bank (s : State) (a : Bits) : (s.afterPredict a).bank = s.bankAfterRead a := rfl
@[simp] theorem State.afterPredict_pht (s : State) (a : Bits) : (s.afterPredict a).pht = Table.ensure (s.indexOf a) (Bits.zeros s.cfg.s) s.pht := rfl
@[simp] theorem State.afterPredict_ctr (s : State) (a : Bits) : (s.afterPredict a).ctr = s.counterAt (s.indexOf a) := rfl
@[simp] theorem State.afterPredict_pend (s : State) (a : Bits) : (s.afterPredict a).pend = true := rfl
@[simp] theorem State.afterPredict_paddr (s : State) (a : Bits) : (s.afterPredict a).paddr = a := rfl
@[simp] theorem State.afterPredict_fault (s : State) (a : Bits) : (s.afterPredict a).fault = s.fault := rfl
@[simp] theorem State.afterPredict_fcode (s : State) (a : Bits) : (s.afterPredict a).fcode = s.fcode := rfl
@[simp] theorem State.afterPredict_fcmd (s : State) (a : Bits) : (s.afterPredict a).fcmd = s.fcmd := rfl
@[simp] theorem State.afterPredict_input (s : State) (a : Bits) : (s.afterPredict a).input = s.input := rfl
@[simp] theorem State.afterPredict_output (s : State) (a : Bits) : (s.afterPredict a).output = s.output := rfl

@[simp] theorem State.afterUpdate_cfg (s : State) (a : Bits) (r : BranchResult) : (s.afterUpdate a r).cfg = s.cfg := rfl
@[simp] theorem State.afterUpdate_bhr (s : State) (a : Bits) (r : BranchResult) : (s.afterUpdate a r).bhr = s.bhrAfterShift a r.bit := rfl
@[simp] theorem State.afterUpdate_bank (s : State) (a : Bits) (r : BranchResult) : (s.afterUpdate a r).bank = s.bankAfterShift a r.bit := rfl
@[simp] theorem State.afterUpdate_pht (s : State) (a : Bits) (r : BranchResult) : (s.afterUpdate a r).pht = Table.put (s.indexOf a) (sat s.ctr r.bit) s.pht := rfl
@[simp] theorem State.afterUpdate_ctr (s : State) (a : Bits) (r : BranchResult) : (s.afterUpdate a r).ctr = sat s.ctr r.bit := rfl
@[simp] theorem State.afterUpdate_pend (s : State) (a : Bits) (r : BranchResult) : (s.afterUpdate a r).pend = false := rfl
@[simp] theorem State.afterUpdate_paddr (s : State) (a : Bits) (r : BranchResult) : (s.afterUpdate a r).paddr = s.paddr := rfl
@[simp] theorem State.afterUpdate_fault (s : State) (a : Bits) (r : BranchResult) : (s.afterUpdate a r).fault = s.fault := rfl
@[simp] theorem State.afterUpdate_fcode (s : State) (a : Bits) (r : BranchResult) : (s.afterUpdate a r).fcode = s.fcode := rfl
@[simp] theorem State.afterUpdate_fcmd (s : State) (a : Bits) (r : BranchResult) : (s.afterUpdate a r).fcmd = s.fcmd := rfl
@[simp] theorem State.afterUpdate_input (s : State) (a : Bits) (r : BranchResult) : (s.afterUpdate a r).input = s.input := rfl
@[simp] theorem State.afterUpdate_output (s : State) (a : Bits) (r : BranchResult) : (s.afterUpdate a r).output = s.output := rfl

/-- The part of `State.wf` that says every register and table has the configuration's width. -/
structure State.Widths (s : State) : Prop where
  mem   : Memory.wf s = true
  bhr   : s.bhr.length = s.cfg.bhrWidth
  ctr   : s.ctr.length = s.cfg.s
  paddr : s.paddr.length = s.cfg.n
  fcmd  : s.fcmd.length = s.cfg.wordWidth

theorem State.wf_iff (s : State) :
    s.wf = true ↔ s.cfg.wf = true ∧ s.Widths ∧ s.faultRecordWf = true ∧ s.pendingWf = true := by
  unfold State.wf
  simp only [Bool.and_eq_true, beq_iff_eq]
  constructor
  · rintro ⟨⟨⟨⟨⟨⟨⟨h1, h2⟩, h3⟩, h4⟩, h5⟩, h6⟩, h7⟩, h8⟩
    exact ⟨h1, ⟨h2, h3, h4, h5, h6⟩, h7, h8⟩
  · rintro ⟨h1, ⟨h2, h3, h4, h5, h6⟩, h7, h8⟩
    exact ⟨⟨⟨⟨⟨⟨⟨h1, h2⟩, h3⟩, h4⟩, h5⟩, h6⟩, h7⟩, h8⟩

theorem State.Widths.of_wf {s : State} (h : s.wf = true) : s.Widths := ((State.wf_iff s).1 h).2.1

theorem predictBody_of_pend {a : Bits} {s : State} (h : s.pend = true) :
    predictBody a s = .error .protocolViolation := by simp [predictBody, h]

theorem predictBody_of_idle {a : Bits} {s : State} (hw : s.Widths) (ha : a.length = s.cfg.n) (hp : s.pend = false) :
    predictBody a s = .ok (s.afterPredict a, predictionBit (s.counterAt (s.indexOf a))) := by
  have hk := length_indexOf hw.mem hw.bhr ha
  have hg : phtGet (s.indexOf a) (phtEnsure (s.indexOf a) (s.setBank (s.bankAfterRead a)))
      = .ok (s.counterAt (s.indexOf a)) := phtGet_eq_ok.2 ⟨hk, by simp [phtEnsure, State.counterAt]⟩
  have hc : ctrLoad (s.counterAt (s.indexOf a)) (phtEnsure (s.indexOf a) (s.setBank (s.bankAfterRead a)))
      = .ok ((phtEnsure (s.indexOf a) (s.setBank (s.bankAfterRead a))).setCtr (s.counterAt (s.indexOf a))) :=
    ctrLoad_eq_ok.2 ⟨length_counterAt hw.mem, rfl⟩
  simp only [predictBody, hp, Bool.false_eq_true, if_false, index_eq, hg, hc]
  rfl

theorem updateBody_of_violation {a : Bits} {r : BranchResult} {s : State} (h : s.pend = false ∨ s.paddr ≠ a) :
    updateBody a r s = .error .protocolViolation := by simp [updateBody, h]

theorem bankAfterShift_ensure (s : State) (a : Bits) (b : Bool) :
    (s.setBank (s.bankAfterRead a)).bankAfterShift a b = s.bankAfterShift a b := by
  unfold State.bankAfterShift State.bankAfterRead State.histContent
  rcases histSel_cases s.cfg a with ⟨-, e⟩ | ⟨-, e⟩ <;> simp [e, Table.put_ensure]

theorem updateBody_of_match {a : Bits} {r : BranchResult} {s : State} (hw : s.Widths) (hp : s.pend = true)
    (ha : s.paddr = a) : updateBody a r s = .ok (s.afterUpdate a r, false) := by
  have hl : a.length = s.cfg.n := ha ▸ hw.paddr
  have hk := length_indexOf hw.mem hw.bhr hl
  have hput : phtPut (s.indexOf a) (sat s.ctr r.bit) ((s.setBank (s.bankAfterRead a)).setCtr (sat s.ctr r.bit))
      = .ok (((s.setBank (s.bankAfterRead a)).setCtr (sat s.ctr r.bit)).setPht
          (Table.put (s.indexOf a) (sat s.ctr r.bit) s.pht)) :=
    phtPut_eq_ok.2 ⟨⟨hk, by simpa using hw.ctr⟩, rfl⟩
  have hcond : ¬ (s.pend = false ∨ s.paddr ≠ a) := by simp [hp, ha]
  simp only [updateBody, if_neg hcond, index_eq, State.setBank_ctr, State.setCtr_ctr, hput]
  have hins := insertHist_eq a r.bit (((s.setBank (s.bankAfterRead a)).setCtr (sat s.ctr r.bit)).setPht
          (Table.put (s.indexOf a) (sat s.ctr r.bit) s.pht))
  simp only [State.setPht_cfg, State.setCtr_cfg, State.setBank_cfg] at hins
  rw [hins]
  have hb := bankAfterShift_ensure s a r.bit
  unfold State.afterUpdate
  rw [← hb]
  rfl

/-- Everything `exec` can do with a command on a state of the configuration's widths. -/
theorem execPredict_cases {a : Bits} {s : State} (hw : s.Widths) (ha : a.length = s.cfg.n) :
    execPredict a s = .next
      (if s.fault then refuse s
       else if s.pend then raiseFault .protocolViolation (encode s.cfg.n (.predict a)) s
       else respond (predictionBit (s.counterAt (s.indexOf a))) false none (s.afterPredict a)) := by
  unfold execPredict
  rw [if_pos ha]
  congr 1
  cases hf : s.fault with
  | true => exact runCommand_of_fault hf
  | false =>
    cases hp : s.pend with
    | true => exact runCommand_of_error hf (predictBody_of_pend hp)
    | false => exact runCommand_of_ok hf (predictBody_of_idle hw ha hp)

theorem execUpdate_cases {a : Bits} {r : BranchResult} {s : State} (hw : s.Widths) (ha : a.length = s.cfg.n) :
    execUpdate a r s = .next
      (if s.fault then refuse s
       else if s.pend = true ∧ s.paddr = a then respond false false none (s.afterUpdate a r)
       else raiseFault .protocolViolation (encode s.cfg.n (.update a r)) s) := by
  unfold execUpdate
  rw [if_pos ha]
  congr 1
  cases hf : s.fault with
  | true => exact runCommand_of_fault hf
  | false =>
    by_cases h : s.pend = true ∧ s.paddr = a
    · simpa [h] using runCommand_of_ok hf (updateBody_of_match (r := r) hw h.1 h.2)
    · have hv : s.pend = false ∨ s.paddr ≠ a := by
        by_cases hp : s.pend = true
        · exact .inr fun he => h ⟨hp, he⟩
        · exact .inl (by simpa using hp)
      simpa [h] using runCommand_of_error hf (updateBody_of_violation (r := r) hv)

/-- Everything a step can do. -/
theorem step_cases (s : State) :
    (s.input = [] ∧ step s = .next s)
    ∨ (∃ c rest, s.input = .reset c :: rest ∧ step s = .next (acceptReset c rest))
    ∨ (∃ w rest i, s.input = .command w :: rest ∧ decode s.cfg.n w = .instr i ∧ step s = exec i (s.setInput rest))
    ∨ (∃ w rest why, s.input = .command w :: rest ∧ decode s.cfg.n w = .illegal why
        ∧ step s = .next (execIllegal w (s.setInput rest)))
    ∨ (∃ w rest, s.input = .command w :: rest ∧ decode s.cfg.n w = .wrongWidth ∧ step s = .fault .wordWidth) := by
  unfold step acceptNext execute
  match h : s.input with
  | [] => simp
  | .reset c :: rest => simp
  | .command w :: rest =>
    simp only [State.setInput_cfg]
    cases hd : decode s.cfg.n w <;> simp [hd]

end Sys2Proof.Machine
end

