-- ==== Sys2Proof/Laws/Decode.lean ====
section
/-!
SUPPORT. The decoder on a word written as its three fields, and the shape of every word.
-/

namespace Sys2Proof

/-- A word of N + 3 bits is `addr ++ t ++ op` (30_encoding.md R51). -/
theorem word_fields {n : Nat} {w : Bits} (h : w.length = n + 3) :
    ∃ (a : Bits) (t o₁ o₀ : Bool), a.length = n ∧ w = a ++ [t, o₁, o₀] := by
  have h3 : (w.drop n).length = 3 := by simp [h]
  match hd : w.drop n, h3 with
  | [t, o₁, o₀], _ => exact ⟨w.take n, t, o₁, o₀, by simp [h], by rw [← hd, List.take_append_drop]⟩

/-- The decoder on a word given by its fields. -/
theorem decode_fields {n : Nat} {a : Bits} (t o₁ o₀ : Bool) (h : a.length = n) :
    decode n (a ++ [t, o₁, o₀]) =
      match t, o₁, o₀ with
      | false, false, false => .instr (.predict a)
      | true, false, false => .illegal .predictOutcomeBit
      | true, false, true => .instr (.update a .taken)
      | false, false, true => .instr (.update a .notTaken)
      | t, true, false =>
        if t = false ∧ a = Bits.zeros n then .instr .monitor else .illegal .monitorReservedField
      | _, true, true => .illegal .reservedOp := by
  subst h
  simp only [decode, Command.addr, List.length_append, List.length_cons, List.length_nil, List.drop_left,
    List.take_left, if_true]
  cases t <;> cases o₁ <;> cases o₀ <;> simp

/-- A word the decoder does not reject for its width has N + 3 bits. -/
theorem length_of_decode {n : Nat} {w : Bits} (h : decode n w ≠ .wrongWidth) : w.length = n + 3 := by
  by_contra hc
  exact h (by simp [decode, hc])

/-- A word of N + 3 bits is not rejected for its width. -/
theorem decode_ne_wrongWidth {n : Nat} {w : Bits} (h : w.length = n + 3) : decode n w ≠ .wrongWidth := by
  obtain ⟨a, t, o₁, o₀, ha, rfl⟩ := word_fields h
  rw [decode_fields t o₁ o₀ ha]
  cases t <;> cases o₁ <;> cases o₀ <;> simp
  split <;> simp

end Sys2Proof
end

