-- ==== Sys2Proof/Laws/PerInstr.lean ====
section
/-!
SUPPORT. Statements about every instruction as syntax, one lemma per constructor.
-/

namespace Sys2Proof.Laws.EncodedWidth

/-- The command word of a well-formed instruction has N + 3 bits: there is one length (30_encoding.md R65). -/
def Statement (i : Sys2Proof.Instr) : Prop := ∀ n, i.wf n = true → (Sys2Proof.encode n i).length = n + 3

theorem predict (a : Sys2Proof.Bits) : Statement (.predict a) := fun n h => by
  simp_all [Sys2Proof.encode, Sys2Proof.Instr.wf]

theorem update (a : Sys2Proof.Bits) (r : Sys2Proof.BranchResult) : Statement (.update a r) := fun n h => by
  simp_all [Sys2Proof.encode, Sys2Proof.Instr.wf]

theorem monitor : Statement .monitor := fun n _ => by
  simp [Sys2Proof.encode]

end Sys2Proof.Laws.EncodedWidth
end

