-- ==== Sys2Proof/Tests/Slice0.lean ====
section
/-!
SUPPORT. The model's own tests and the witnesses of the statements' hypotheses. Expected values are those of
95_test_vectors.md, 30_encoding.md R66 and 41_indexing.md R106, transcribed by hand; each group names its section.
-/

namespace Sys2Proof.Machine.Tests

/-- The bit vector of `L` bits and value `n`, for writing small states. -/
def v (L n : Nat) : Bits := Bits.ofNat L n

/-- A configuration with legal mode codes. -/
def config (x : Variant) (n h s k : Nat) : CfgInput := ⟨x.code, n, h, s, k, 0, 0⟩

/-- The state after a reset with such a configuration. -/
def fresh (x : Variant) (n h s k : Nat) : State := State.resetWith (Cfg.ofInput (config x n h s k))

/-- GAg, N = 4, H = 2, S = 2: the configuration of sections 2.10 and 2.11. -/
def gag : State := fresh .GAg 4 2 2 0

/-- The state of section 2.10's second row: BHR = 01, PHT{01:10}. -/
def trained : State := (gag.setBhr (v 2 1)).setPht [(v 2 1, v 2 2)]

/-- The state a result goes on with. -/
def nextOf : Result → Option State
  | .next t => some t
  | _ => none

/-- One step on the command word of value `w`. -/
def after (s : State) (w : Nat) : Option State := nextOf (step (s.withFetchWord 8 w))

/-- The last response word. -/
def lastWord (s : State) : Option (BitVec 7) := s.output.getLast?.map (·.word)

/-- `trained` after `predict 0b0011`. -/
def pending : State := (((trained.setCtr (v 2 2)).setPend true).setPaddr (v 4 3))

/-- A state faulted by the word 0x03 (section 2.11). -/
def faulted : State := gag.setFault 0b010#3 (v 7 3)

/-! ## WellFormed refuses each ill-formed term -/

theorem test_wf_predict_short : Instr.wf 4 (.predict [true, true, true]) = false := by decide
theorem test_wf_predict_long : Instr.wf 4 (.predict [true, true, true, true, true]) = false := by decide
theorem test_wf_update_short : Instr.wf 4 (.update [] .taken) = false := by decide
theorem test_wf_update_long : Instr.wf 1 (.update [true, true] .notTaken) = false := by decide
theorem test_wf_ok : Instr.wf 4 (.predict [false, false, true, true]) = true ∧ Instr.wf 1 (.update [true] .taken) = true
    ∧ Instr.wf 7 .monitor = true := by decide

/-! ## Decode, words written out bit by bit (section 2.9) -/

theorem test_decode_predict : decode 4 [false, false, true, true, false, false, false]
    = .instr (.predict [false, false, true, true]) := by decide
theorem test_decode_predict_t1 : decode 4 [false, false, true, true, true, false, false]
    = .illegal .predictOutcomeBit := by decide
theorem test_decode_update_taken : decode 4 [false, false, true, true, true, false, true]
    = .instr (.update [false, false, true, true] .taken) := by decide
theorem test_decode_update_not_taken : decode 4 [false, false, true, true, false, false, true]
    = .instr (.update [false, false, true, true] .notTaken) := by decide
theorem test_decode_update_largest : decode 4 [true, true, true, true, true, false, true]
    = .instr (.update [true, true, true, true] .taken) := by decide
theorem test_decode_monitor : decode 4 [false, false, false, false, false, true, false] = .instr .monitor := by decide
theorem test_decode_monitor_addr : decode 4 [false, false, true, true, false, true, false]
    = .illegal .monitorReservedField := by decide
theorem test_decode_monitor_t1 : decode 4 [false, false, false, false, true, true, false]
    = .illegal .monitorReservedField := by decide
theorem test_decode_reserved_op : decode 4 [false, false, false, false, false, true, true] = .illegal .reservedOp
    ∧ decode 4 [false, false, true, true, true, true, true] = .illegal .reservedOp := by decide
theorem test_decode_one_bit_addresses : decode 1 [true, false, false, false] = .instr (.predict [true])
    ∧ decode 1 [true, true, false, true] = .instr (.update [true] .taken)
    ∧ decode 1 [false, false, true, false] = .instr .monitor := by decide
theorem test_decode_width : decode 4 [false, false, false, false, false, false] = .wrongWidth
    ∧ decode 4 [false, false, false, false, false, false, false, false] = .wrongWidth := by decide
theorem test_table_words : decodeTableWord 8 0x18 = some (.predict [false, false, true, true])
    ∧ decodeTableWord 8 0x1D = some (.update [false, false, true, true] .taken)
    ∧ decodeTableWord 8 0x02 = some .monitor ∧ decodeTableWord 8 0x03 = none
    ∧ decodeTableWord 8 0x98 = none := by decide

/-! ## One step (sections 2.10 and 2.11) -/

theorem test_predict_trained :
    (after trained 0x18).map (fun t => (lastWord t, [t.ctr, t.paddr, t.counterAt (v 2 1)]))
      = some (some 0x03#7, [[true, false], [false, false, true, true], [true, false]]) := by decide
theorem test_predict_pending :
    (after pending 0x28).map (fun t => (lastWord t, t.fault, t.fcode, t.fcmd, t.paddr))
      = some (some 0x1E#7, true, 0b011#3, [false, true, false, true, false, false, false], v 4 3) := by decide
theorem test_update_trained :
    (after pending 0x1D).map (fun t => (lastWord t, [t.ctr, t.bhr, t.counterAt (v 2 1)]))
      = some (some 0x00#7, [[true, true], [true, true], [true, true]]) := by decide
theorem test_update_other_address :
    (after pending 0x2D).map (fun t => (lastWord t, t.fcmd, t.bhr, t.pend))
      = some (some 0x1E#7, [false, true, false, true, true, false, true], [false, true], true) := by decide
theorem test_monitor_pending :
    (after pending 0x02).map (fun t => (lastWord t, t.engine == pending.engine)) = some (some 0x02#7, true) := by decide
theorem test_monitor_faulted :
    (after faulted 0x02).map (fun t => (lastWord t, t.output.map (fun r => r.snapshot.map (·.fcmd))))
      = some (some 0x14#7, [some [false, false, false, false, false, true, true]]) := by decide
theorem test_illegal_before_protocol :
    (after pending 0x07).map (fun t => (lastWord t, t.fcode)) = some (some 0x16#7, 0b010#3) := by decide
theorem test_refused : (after faulted 0x18).map (fun t => (lastWord t, t.pht, t.fcmd)) = some (some 0x54#7, [], v 7 3) := by
  decide
/-- Program P3, steps 7 and 8 (section 3.3): two addresses of one hashed set. -/
theorem test_hashed_set :
    (after ((((fresh .SAs 4 1 2 2).setBank [(v 2 0, v 1 1), (v 2 1, v 1 1)]).setPht
        [(v 3 0, v 2 1), (v 3 1, v 2 1), (v 3 2, v 2 1)])) 0x50).bind
      (fun s => (after s 0x51).map (fun t => (t.bank, t.pht, t.ctr)))
    = some ([(v 2 0, v 1 0), (v 2 1, v 1 1)], [(v 3 0, v 2 1), (v 3 1, v 2 0), (v 3 2, v 2 1)], v 2 0) := by decide

/-! ## Primitives (sections 2.2 to 2.7) -/

theorem test_insert : srInsert false [false, true, true] = [true, true, false] ∧ srInsert true [false] = [true] := by decide
theorem test_proj : proj 2 [true, false, true, true] = [true, true] ∧ proj 1 [false, true, true, false] = [false] := by
  decide
theorem test_sat : sat (v 3 3) true = v 3 4 ∧ sat (v 3 7) true = v 3 7 ∧ sat (v 3 4) false = v 3 3
    ∧ sat (v 3 0) false = v 3 0 ∧ predictionBit (v 3 4) = true ∧ predictionBit (v 3 3) = false := by decide
theorem test_sat_inside : sat [false, true] true = [true, false] ∧ sat [true, false] false = [false, true] := by decide
theorem test_hash : hashFold 2 (v 3 1) = v 2 2 ∧ hashFold 2 (v 5 0b10110) = v 2 1 ∧ hashFold 3 (v 5 0b10110) = v 3 1
    ∧ hashFold 2 (v 5 1) = v 2 2 ∧ hashFold 3 (v 5 31) = v 3 1 := by decide
theorem test_table_order : Table.put (v 2 2) (v 2 1) [(v 2 1, v 2 0), (v 2 3, v 2 0)]
    = [(v 2 1, v 2 0), (v 2 2, v 2 1), (v 2 3, v 2 0)] := by decide

/-! ## Configurations (section 2.12) and text (00_scope.md R2; 30_encoding.md R63, R64) -/

theorem test_reset_legal : (fresh .GAg 4 2 2 0).fault = false ∧ (fresh .SAs 4 2 2 4).fault = false
    ∧ (fresh .PAg 4 2 2 9).fault = false
    ∧ (State.resetWith (Cfg.ofInput ⟨Variant.code .PAg, 4, 2, 2, 2, 3, 0⟩)).fault = false := by decide
theorem test_reset_illegal : (fresh .SAg 4 2 2 5).fcode = 0b001#3 ∧ (fresh .PAs 4 2 2 0).fault = true
    ∧ (State.resetWith (Cfg.ofInput ⟨Variant.code .SAp, 4, 2, 2, 2, 1, 0⟩)).fault = true
    ∧ (State.resetWith (Cfg.ofInput ⟨Variant.code .GAp, 4, 2, 2, 2, 0, 1⟩)).fcmd = Bits.zeros 7 := by decide
theorem test_name : (Cfg.ofInput Config.initial).name = "BPE-SAs-N4-H1-S2-K2-XOR-SAT" := by decide
theorem test_assemble : assemble 4 ['s', 't', 'e', 'p', ' ', '0', 'b', '1', ',', ' ', 'N', ' ', ';', 'x', '\n',
      'm', 'o', 'n', 'i', 't', 'o', 'r']
    = some [.predict [false, false, false, true], .update [false, false, false, true] .notTaken, .monitor] := by decide
theorem test_assemble_too_wide : assemble 4 ['p', 'r', 'e', 'd', 'i', 'c', 't', ' ', '0', 'x', '1', 'F'] = none := by
  decide

/-! ## Witnesses: concrete states and operands that meet the hypotheses of each statement -/

/-- SAs of program P3 with one register and two entries present, idle. -/
def sets : State := ((fresh .SAs 4 1 2 2).setBank [(v 2 0, v 1 1)]).setPht [(v 3 0, v 2 1), (v 3 1, v 2 2)]

/-- `sets` after `predict 0b1010`. -/
def setsPending : State := ((sets.setCtr (v 2 2)).setPend true).setPaddr (v 4 10)

/-- The state after a reset with an illegal configuration (GAg, H = 0). -/
def misconfigured : State := fresh .GAg 4 0 2 0

theorem witness_DecodeOfEncode : Instr.wf 4 (.predict (v 4 15)) = true ∧ Instr.wf 4 (.update (v 4 0) .taken) = true
    ∧ Instr.wf 4 .monitor = true ∧ Instr.wf 0 (.predict []) = true := by decide
theorem witness_EncodeOfDecode : decode 4 (v 7 0x7D) = .instr (.update (v 4 15) .taken)
    ∧ decode 4 (v 7 0x00) = .instr (.predict (v 4 0)) ∧ decode 4 (v 7 0x02) = .instr .monitor := by decide
/-- One word for each clause: the word, and the fields the clause asks for. -/
theorem witness_DecodeIsTotal : (v 7 0x78).length = 4 + 3 ∧ v 7 0x78 = v 4 15 ++ [false, false, false]
    ∧ v 7 0x19 = v 4 3 ++ [false, false, true] ∧ v 7 0x1D = v 4 3 ++ [true, false, true]
    ∧ v 7 0x02 = Bits.zeros 4 ++ [false, true, false]
    ∧ v 7 0x7F = v 4 15 ++ [true, true, true] ∧ v 7 0x04 = v 4 0 ++ [true, false, false]
    ∧ v 7 0x06 = v 4 0 ++ [true, true, false] ∧ v 7 0x0A = v 4 1 ++ [false, true, false] ∧ v 4 1 ≠ Bits.zeros 4 := by decide
theorem witness_TableWordRunsFirst : decodeTableWord 8 0x7D = some (.update (v 4 15) .taken)
    ∧ decodeTableWord 7 0x18 = some (.predict (v 4 3)) := by decide
theorem witness_StepRunsDecodedInstruction : (present [v 7 0x18] sets).input = [.command (v 7 0x18)]
    ∧ decode sets.cfg.n (v 7 0x18) = .instr (.predict (v 4 3)) := by decide
theorem witness_UnpresentableWidthsStop : (present [v 6 0, v 8 0] gag).input = .command (v 6 0) :: [.command (v 8 0)]
    ∧ (v 6 0).length ≠ gag.cfg.n + 3 ∧ (v 8 0).length ≠ gag.cfg.n + 3 ∧ (v 3 0).length ≠ gag.cfg.n
    ∧ (v 5 0).length ≠ gag.cfg.n := by decide
/-- The clause of a PREDICT that completes, and the others: pending, refused, MONITOR, UPDATE, ILLEGAL. -/
theorem witness_EveryCommandAnswersOnce : (present [v 7 0x18] trained).wf = true
    ∧ (present [v 7 0x18] trained).input = .command (v 7 0x18) :: [] ∧ (v 7 0x18).length = trained.cfg.n + 3
    ∧ decode trained.cfg.n (v 7 0x18) = .instr (.predict (v 4 3)) ∧ trained.fault = false ∧ trained.pend = false
    ∧ pending.wf = true ∧ pending.pend = true ∧ faulted.wf = true ∧ faulted.fault = true
    ∧ isMonitorWord 4 (v 7 0x02) = true ∧ isMonitorWord 4 (v 7 0x03) = false := by decide
theorem witness_StepDependsOnEngineAndInput :
    (present [v 7 0x1D] pending).wf = true
    ∧ (present [v 7 0x1D] pending).engine = ((present [v 7 0x1D] pending).emit ⟨0x02#7, none⟩).engine
    ∧ (present [v 7 0x1D] pending).input = ((present [v 7 0x1D] pending).emit ⟨0x02#7, none⟩).input
    ∧ (after pending 0x1D).isSome = true := by decide
/-- A legal configuration, an illegal one, with and without a BHR. -/
theorem witness_ResetSequence :
    (pending.setInput [.reset (config .GAg 4 2 2 0), .command (v 7 2)]).input
      = .reset (config .GAg 4 2 2 0) :: [.command (v 7 2)]
    ∧ (Cfg.ofInput (config .GAg 4 2 2 0)).illegal = false ∧ (Cfg.ofInput (config .SAs 4 1 2 2)).illegal = false
    ∧ (Cfg.ofInput (config .SAs 4 1 2 5)).illegal = true := by decide
/-- The boundaries of each condition: widths 0 and 1, K = 0, 1, N, N + 1, and the mode codes 0 and 1. -/
theorem witness_ConfigErrorConditions :
    (pending.setInput [.reset (config .GAg 0 1 1 0)]).input = .reset (config .GAg 0 1 1 0) :: []
    ∧ (Cfg.ofInput (config .GAg 1 1 1 0)).illegal = false ∧ (Cfg.ofInput (config .GAg 0 1 1 0)).illegal = true
    ∧ (Cfg.ofInput (config .PAs 2 1 1 0)).illegal = true ∧ (Cfg.ofInput (config .PAs 2 1 1 1)).illegal = false
    ∧ (Cfg.ofInput (config .PAs 2 1 1 2)).illegal = false ∧ (Cfg.ofInput (config .PAs 2 1 1 3)).illegal = true
    ∧ (Cfg.ofInput ⟨Variant.code .SAg, 2, 1, 1, 1, 1, 0⟩).illegal = true
    ∧ (Cfg.ofInput ⟨Variant.code .PAs, 2, 1, 1, 1, 1, 0⟩).illegal = false
    ∧ (Cfg.ofInput ⟨Variant.code .GAg, 1, 1, 1, 0, 0, 1⟩).illegal = true := by decide
/-- Also for FaultRecordIsWrittenOnce and OnlyResetChangesConfigOrClearsFault: a step from a well-formed state with a
command, with nothing, with a reset. -/
theorem witness_StepKeepsWellFormed : (present [v 7 0x50] sets).wf = true ∧ (after sets 0x50).isSome = true
    ∧ sets.wf = true ∧ nextOf (step sets) = some sets
    ∧ (nextOf (step (setsPending.setInput [.reset Config.initial]))).isSome = true ∧ setsPending.wf = true := by decide
theorem witness_OnlyResetChangesConfigOrClearsFault :
    nextOf (step (present [v 7 0x18] faulted)) = some (refuse faulted) ∧ faulted.fault = true
    ∧ (present [v 7 0x18] faulted).input = [.command (v 7 0x18)] := by decide
theorem witness_InsertShiftsOneBitIn : ([true] : Bits) ≠ [] ∧ v 3 5 ≠ [] := by decide
theorem witness_ShiftRegisterIsFifo : ([false, true, true] : Bits).length ≤ (v 3 5).length
    ∧ ([] : Bits).length ≤ (v 3 5).length := by decide
theorem witness_CounterLaws : 1 ≤ 1 ∧ 1 ≤ 3 ∧ (v 1 1).length = 1 := by decide
/-- The last clause of SatCountsOneStep at each extreme. -/
theorem witness_SatCountsOneStep : (v 2 3).val = 2 ^ (v 2 3).length - 1 ∧ (v 2 0).val = 0 := by decide
theorem witness_PredictionBitIsUpperHalf : v 1 0 ≠ [] ∧ v 3 4 ≠ [] := by decide
theorem witness_HashClosedForm : 1 ≤ 2 ∧ 2 ≤ (v 5 22).length ∧ 1 ≤ (v 1 1).length ∧ 0 < 1 ∧ 1 < 2 := by decide
theorem witness_HashLaws : (v 3 1).length = (v 3 2).length := by decide
/-- Present and absent keys, and values of the register's width and of others. -/
theorem witness_BankOperations : Table.get (v 2 0) sets.bank ≠ none ∧ Table.get (v 2 1) sets.bank = none
    ∧ (v 1 1).length = sets.cfg.h ∧ (v 2 1).length ≠ sets.cfg.h ∧ (v 0 0).length ≠ sets.cfg.h := by decide
theorem witness_HistoryTableOperations : (v 3 0).length = sets.cfg.phtKeyWidth ∧ (v 3 7).length = sets.cfg.phtKeyWidth
    ∧ Table.get (v 3 0) sets.pht = some (v 2 1) ∧ Table.get (v 3 7) sets.pht = none
    ∧ (v 2 3).length = sets.cfg.s ∧ (v 1 0).length ≠ sets.cfg.s ∧ (v 3 0).length ≠ sets.cfg.s := by decide
theorem witness_LoadChecksTheWidth : (v 2 2).length = 2 ∧ (v 1 1).length ≠ 2 ∧ (v 3 5).length ≠ 2 := by decide
theorem witness_IndexerTable : trained.wf = true ∧ (v 4 6).length = trained.cfg.n ∧ (fresh .PAp 4 2 2 0).wf = true
    ∧ (v 4 6).length = (fresh .PAp 4 2 2 0).cfg.n ∧ sets.wf = true ∧ (v 4 6).length = sets.cfg.n := by decide
theorem witness_SharingByVariant : sets.wf = true ∧ setsPending.wf = true ∧ sets.cfg = setsPending.cfg
    ∧ (v 4 5).length = sets.cfg.n ∧ (v 4 10).length = sets.cfg.n ∧ v 4 5 ≠ v 4 10
    ∧ hashFold sets.cfg.setWidth (v 4 5) = hashFold sets.cfg.setWidth (v 4 10) := by decide
/-- PREDICT's clauses: idle and pending. Also for PredictFrame and AbsentPredictsAsZero. -/
theorem witness_PredictMeaning : sets.wf = true ∧ (v 4 10).length = sets.cfg.n ∧ sets.fault = false ∧ sets.pend = false
    ∧ setsPending.wf = true ∧ (v 4 10).length = setsPending.cfg.n ∧ setsPending.fault = false ∧ setsPending.pend = true := by
  decide
theorem witness_PredictFrame : trained.wf = true ∧ (v 4 3).length = trained.cfg.n ∧ trained.fault = false
    ∧ trained.pend = false := by decide
theorem witness_FirstPredictIsNotTaken : (Cfg.ofInput (config .SAs 4 2 2 2)).illegal = false ∧ (v 4 6).length = 4
    ∧ (Cfg.ofInput (config .GAg 1 1 1 0)).illegal = false := by decide
theorem witness_AbsentPredictsAsZero : sets.wf = true ∧ (v 4 1).length = sets.cfg.n ∧ sets.fault = false
    ∧ sets.pend = false ∧ sets.cfg.variant.banked = true ∧ Table.get (sets.indexOf (v 4 1)) sets.pht = none := by decide
theorem witness_PredictReadsOnlyItsEntry :
    let s' := sets.setPht [(v 3 1, v 2 2)]
    sets.wf = true ∧ s'.wf = true ∧ (v 4 10).length = sets.cfg.n ∧ sets.cfg = s'.cfg ∧ sets.pend = s'.pend
    ∧ sets.fault = s'.fault ∧ sets.fcode = s'.fcode
    ∧ sets.histContent (histSel sets.cfg (v 4 10)) = s'.histContent (histSel sets.cfg (v 4 10))
    ∧ sets.counterAt (sets.indexOf (v 4 10)) = s'.counterAt (sets.indexOf (v 4 10)) ∧ sets ≠ s' := by decide
/-- UPDATE's clauses: the pending address, another address, nothing pending. -/
theorem witness_UpdateMeaning : setsPending.wf = true ∧ (v 4 10).length = setsPending.cfg.n ∧ setsPending.fault = false
    ∧ setsPending.pend = true ∧ setsPending.paddr = v 4 10
    ∧ (v 4 5).length = setsPending.cfg.n ∧ setsPending.paddr ≠ v 4 5
    ∧ sets.wf = true ∧ sets.fault = false ∧ sets.pend = false := by decide
theorem witness_UpdateFrame : pending.wf = true ∧ pending.fault = false ∧ pending.pend = true := by decide
theorem witness_WorkingCounterIsTheEntry :
    (nextOf (core.run 1 ((State.resetWith (Cfg.ofInput Config.initial)).setInput [.command (v 7 0x50)]))).map State.pend
      = some true := by decide
theorem witness_OneBranchOccurrence : sets.wf = true ∧ (v 4 5).length = sets.cfg.n ∧ sets.fault = false
    ∧ sets.pend = false := by decide
theorem witness_MonitorMeaning : setsPending.wf = true ∧ faulted.wf = true ∧ misconfigured.wf = true := by decide
theorem witness_MonitorIsInvisible : trained.wf = true
    ∧ ∀ w ∈ [v 7 0x18, v 7 0x02, v 7 0x1D], w.length = trained.cfg.n + 3 := by decide
/-- One word for each kind of ILLEGAL. -/
theorem witness_IllegalWordRaises : (v 4 3).length = pending.cfg.n
    ∧ (present [v 4 3 ++ [true, true, true]] pending).input = .command (v 4 3 ++ [true, true, true]) :: []
    ∧ (present [v 4 3 ++ [true, false, false]] pending).input = .command (v 4 3 ++ [true, false, false]) :: []
    ∧ (present [v 4 1 ++ [false, true, false]] pending).input = .command (v 4 1 ++ [false, true, false]) :: []
    ∧ (present [v 4 0 ++ [true, true, false]] pending).input = .command (v 4 0 ++ [true, true, false]) :: []
    ∧ v 4 1 ≠ Bits.zeros pending.cfg.n ∧ pending.fault = false := by decide
theorem witness_ProtocolViolations : (v 4 5).length = pending.cfg.n ∧ pending.fault = false ∧ pending.pend = true
    ∧ pending.paddr ≠ v 4 5 ∧ (v 4 5).length = gag.cfg.n ∧ gag.fault = false ∧ gag.pend = false := by decide
theorem witness_FaultsArePrecise : (present [v 7 0x1C] pending).wf = true
    ∧ (present [v 7 0x1C] pending).input = .command (v 7 0x1C) :: [] ∧ pending.fault = false
    ∧ (after pending 0x1C).map State.fault = some true := by decide
theorem witness_FaultStateIsSticky : faulted.fault = true
    ∧ (∀ w ∈ [v 7 0x18, v 7 0x02, v 7 0x03], w.length = faulted.cfg.n + 3)
    ∧ isMonitorWord faulted.cfg.n (v 7 0x18) = false ∧ isMonitorWord faulted.cfg.n (v 7 0x03) = false := by decide
/-- No fault, a first fault, a fault kept. -/
theorem witness_FaultRecordIsWrittenOnce : (present [v 7 0x03] pending).wf = true
    ∧ (present [v 7 0x03] pending).input = .command (v 7 0x03) :: []
    ∧ (after pending 0x03).map (fun t => (t.fault, t.fcode)) = some (true, 0b010#3) ∧ pending.fault = false
    ∧ (after pending 0x1D).map State.fault = some false ∧ (after faulted 0x1D).map State.fault = some true := by decide
/-- A run to a command's fault, and one that starts in CONFIG_ERROR. -/
theorem witness_PrimitiveFaultsAreUnreachable :
    (nextOf (core.run 1 ((State.resetWith (Cfg.ofInput Config.initial)).setInput [.command (v 7 0x03)]))).map State.fcode
      = some 0b010#3
    ∧ (nextOf (core.run 1 ((State.resetWith (Cfg.ofInput (config .SAs 4 1 2 5))).setInput []))).map State.fcode
      = some 0b001#3 := by decide
theorem witness_OrderlyStreamsExactlyDoNotFault : pending.wf = true ∧ pending.fault = false
    ∧ (∀ i ∈ [Instr.monitor, .update (v 4 3) .taken, .predict (v 4 5)], i.wf pending.cfg.n = true)
    ∧ orderly pending.pending [.monitor, .update (v 4 3) .taken, .predict (v 4 5)] = true
    ∧ orderly pending.pending [.update (v 4 5) .taken] = false := by decide
theorem witness_PAsBehavesAsPAg : 1 ≤ 2 ∧ 1 ≤ 1 ∧ 2 ≤ 2 ∧ (∀ w ∈ [v 5 0x08, v 5 0x0D], w.length = 2 + 3) := by decide
theorem witness_FullWidthSetsBehaveAsAddresses : 1 ≤ 4 ∧ 1 ≤ 2 ∧ (∀ w ∈ [v 7 0x30, v 7 0x35], w.length = 4 + 3) := by decide
theorem witness_AssemblerExpansion : 15 < 2 ^ 4 ∧ 2 ^ 4 ≤ 16 := by decide

end Sys2Proof.Machine.Tests
end

section
/-!
PROOFS. The decoder as a case list (O3): what each command word decodes to, and the width of a decoded address.
-/

namespace Sys2Proof

/-- The operands of a decoded instruction are of the width the engine's words have (30_encoding.md R51, R52). -/
theorem wf_of_decode {n : Nat} {w : Bits} {i : Instr} (h : decode n w = .instr i) : i.wf n = true := by
  obtain ⟨a, t, o₁, o₀, ha, rfl⟩ := word_fields (length_of_decode (by rw [h]; nofun))
  rw [decode_fields t o₁ o₀ ha] at h
  split at h
  case h_5 => -- op 10 is MONITOR, which has no operand, or ILLEGAL
    split at h <;> simp at h
    subst h; rfl
  all_goals simp at h
  all_goals subst h; simpa [Instr.wf] using ha

theorem decode_update_word {n : Nat} {a : Bits} (t : Bool) (h : a.length = n) :
    decode n (a ++ [t, false, true]) = .instr (.update a (if t then .taken else .notTaken)) := by
  rw [decode_fields t false true h]
  cases t <;> rfl

/-- Exactly the words of R56 and R57 are ILLEGAL: op 11, PREDICT's with t = 1, and MONITOR's with a reserved field that is
not zero. -/
theorem decode_illegal_iff {n : Nat} {a : Bits} (t o₁ o₀ : Bool) (h : a.length = n) :
    (∃ why, decode n (a ++ [t, o₁, o₀]) = .illegal why) ↔
      o₁ = true ∧ o₀ = true ∨ o₁ = false ∧ o₀ = false ∧ t = true
        ∨ o₁ = true ∧ o₀ = false ∧ (t = true ∨ a ≠ Bits.zeros n) := by
  rw [decode_fields t o₁ o₀ h]
  cases o₁ <;> cases o₀
  case true.false => by_cases ha : a = Bits.zeros n <;> cases t <;> simp [ha]
  all_goals cases t <;> simp

/-- Settles O3, from the decoder on a word written as its fields. -/
theorem decodeIsTotal : Obligations.DecodeIsTotal := by
  intro n w hw
  obtain ⟨a, t, o₁, o₀, ha, rfl⟩ := word_fields hw
  refine ⟨a, t, o₁, o₀, ha, rfl, ?predict, ?update, ?monitor, (decode_illegal_iff t o₁ o₀ ha).2⟩
  case predict =>
    rintro ⟨rfl, rfl, rfl⟩
    exact decode_fields false false false ha
  case update =>
    rintro ⟨rfl, rfl⟩
    exact decode_update_word t ha
  case monitor =>
    rintro ⟨rfl, rfl, rfl, hz⟩
    rw [decode_fields false true false ha]
    simp [hz]

end Sys2Proof
end

section
/-!
PROOFS. Every command answers once (O8): one lemma for each way a command ends, one for each command, then the step.
-/

namespace Sys2Proof.Machine

/-- `t` is what a command makes of `s` with `r` as its one response, laid out as 30_encoding.md R59 says. `monitor`: the
command is MONITOR. `predicts`: it is a PREDICT that completes. -/
structure Answered (monitor predicts : Bool) (s t : State) (r : Response) : Prop where
  input    : t.input = s.input
  output   : t.output = s.output ++ [r]
  pend     : r.pend = t.pend
  fault    : r.fault = t.fault
  fcode    : r.fcode = t.fcode
  refused  : r.refused = (s.fault && !monitor)
  snapshot : r.snapshot.isSome = monitor
  pred     : r.pred = (predicts && predictionBit t.ctr)

/-- The command, on this state, is a PREDICT that completes (42_operations.md R109). -/
def State.predicts (s : State) (w : Bits) : Bool :=
  match decode s.cfg.n w with
  | .instr (.predict _) => !s.fault && !s.pend
  | _ => false

theorem State.predicts_iff (s : State) (w : Bits) :
    s.predicts w = true ↔ (∃ a, decode s.cfg.n w = .instr (.predict a)) ∧ s.fault = false ∧ s.pend = false := by
  unfold State.predicts
  split
  · next a h => simp [h]
  · next h => simpa using fun a ha => absurd ha (h a)

/-! The ways a command ends. -/

/-- A response given on `u`, a state that has answered and accepted nothing more than `s`. -/
theorem respond_answered {monitor predicts pred refused : Bool} {snap : Option Snapshot} {s u : State}
    (hin : u.input = s.input) (hout : u.output = s.output) (hrefused : refused = (s.fault && !monitor))
    (hsnap : snap.isSome = monitor) (hpred : pred = (predicts && predictionBit u.ctr)) :
    ∃ r, Answered monitor predicts s (respond pred refused snap u) r := by
  obtain ⟨pr, pe, fa, fc, re⟩ := responseWord_fields pred u.pend u.fault u.fcode refused snap
  exact ⟨_, hin, hout ▸ respond_output pred refused snap u, pe, fa, fc, re.trans hrefused, hsnap, pr.trans hpred⟩

theorem refuse_answered {s : State} (hf : s.fault = true) : ∃ r, Answered false false s (refuse s) r :=
  respond_answered rfl rfl (by simp [hf]) rfl rfl

theorem raiseFault_answered {s : State} (f : EngineFault) (w : Bits) (hf : s.fault = false) :
    ∃ r, Answered false false s (raiseFault f w s) r :=
  respond_answered rfl rfl (by simp [hf]) rfl rfl

/-! The commands. -/

theorem execPredict_answered {a : Bits} {s : State} (hw : s.Widths) (ha : a.length = s.cfg.n) :
    ∃ t, execPredict a s = .next t ∧ ∃ r, Answered false (!s.fault && !s.pend) s t r := by
  refine ⟨_, execPredict_cases hw ha, ?_⟩
  cases hf : s.fault with
  | true => exact refuse_answered hf
  | false =>
    cases hp : s.pend with
    | true => exact raiseFault_answered _ _ hf
    | false => exact respond_answered rfl rfl (by simp [hf]) rfl rfl

theorem execUpdate_answered {a : Bits} {b : BranchResult} {s : State} (hw : s.Widths) (ha : a.length = s.cfg.n) :
    ∃ t, execUpdate a b s = .next t ∧ ∃ r, Answered false false s t r := by
  refine ⟨_, execUpdate_cases hw ha, ?_⟩
  cases hf : s.fault with
  | true => exact refuse_answered hf
  | false =>
    by_cases hm : s.pend = true ∧ s.paddr = a
    · simp only [if_pos hm]
      exact respond_answered rfl rfl (by simp [hf]) rfl rfl
    · simp only [if_neg hm]
      exact raiseFault_answered _ _ hf

theorem execMonitor_answered (s : State) :
    ∃ t, execMonitor s = .next t ∧ ∃ r, Answered true false s t r :=
  ⟨_, rfl, respond_answered rfl rfl (by simp) rfl rfl⟩

theorem execIllegal_answered (w : Bits) (s : State) : ∃ r, Answered false false s (execIllegal w s) r := by
  unfold execIllegal
  cases hf : s.fault with
  | true => rw [runCommand_of_fault hf]; exact refuse_answered hf
  | false => rw [runCommand_of_error hf rfl]; exact raiseFault_answered _ _ hf

/-- Whatever a presentable word decodes to, executing it completes and answers once (30_encoding.md R58). -/
theorem execute_answered {w : Bits} {s : State} (hw : s.Widths) (hl : w.length = s.cfg.n + 3) :
    ∃ t, execute w s = .next t ∧ ∃ r, Answered (isMonitorWord s.cfg.n w) (s.predicts w) s t r := by
  unfold execute isMonitorWord State.predicts
  cases hd : decode s.cfg.n w with
  | instr i =>
    have hi := wf_of_decode hd
    cases i with
    | predict a => exact execPredict_answered hw (by simpa [Instr.wf] using hi)
    | update a b => exact execUpdate_answered hw (by simpa [Instr.wf] using hi)
    | monitor => exact execMonitor_answered s
  | illegal why => exact ⟨_, rfl, execIllegal_answered w s⟩
  | wrongWidth => exact absurd hd (decode_ne_wrongWidth hl)

theorem State.Widths.setInput {s : State} (hw : s.Widths) (l : List Input) : (s.setInput l).Widths :=
  ⟨hw.mem, hw.bhr, hw.ctr, hw.paddr, hw.fcmd⟩

theorem step_command {s : State} {w : Bits} {rest : List Input} (h : s.input = .command w :: rest) :
    step s = execute w (s.setInput rest) := by
  simp [step, acceptNext, h]

/-- Settles O8, from the answer of each command: `Answered` gives the response's fields, `State.predicts_iff` when PRED
speaks. -/
theorem everyCommandAnswersOnce : Obligations.EveryCommandAnswersOnce := by
  intro s w rest hwf hin hlen
  obtain ⟨t, hstep, r, hr⟩ := execute_answered ((State.Widths.of_wf hwf).setInput rest) hlen
  refine ⟨t, r, (step_command hin).trans hstep, hr.input, hr.output, hr.pend, hr.fault, hr.fcode, hr.refused,
    hr.snapshot, fun h => ?completed, fun h => ?other⟩
  case completed =>
    have hp : (s.setInput rest).predicts w = true := (State.predicts_iff _ w).2 h
    simpa [hp] using hr.pred
  case other =>
    have hp : (s.setInput rest).predicts w = false := by
      simpa using mt (State.predicts_iff (s.setInput rest) w).1 h
    simpa [hp] using hr.pred

end Sys2Proof.Machine
end

section
/-!
PROOFS. The shift register, the counter and the hash (O17, O25, O50, O20, O21), each from what the primitive does to the
value or to the single bits of a vector.
-/

namespace Sys2Proof

theorem Bits.val_append_singleton (v : Bits) (b : Bool) : Bits.val (v ++ [b]) = 2 * v.val + b.toNat := by
  induction v with
  | nil => simp [Bits.val]
  | cons c v ih =>
    simp only [List.cons_append, Bits.val, ih, List.length_append, List.length_singleton, Nat.pow_succ]
    ring

end Sys2Proof

namespace Sys2Proof.Machine

/-! Shift registers (40_primitives.md R69, R70). -/

/-- Insert in values. The discarded bit has weight `2^L` once shifted, so it is what the modulus takes away. -/
theorem val_srInsert {v : Bits} (b : Bool) (h : v ≠ []) :
    (srInsert b v).val = (2 * v.val + b.toNat) % 2 ^ v.length := by
  obtain ⟨oldest, u, rfl⟩ := List.exists_cons_of_ne_nil h
  have hlt : 2 * Bits.val u + b.toNat < 2 ^ (u.length + 1) := by
    simpa [Bits.val_append_singleton] using Bits.val_lt (u ++ [b])
  have hshift : 2 * Bits.val (oldest :: u) + b.toNat
      = (2 * Bits.val u + b.toNat) + 2 ^ (u.length + 1) * oldest.toNat := by
    rw [Bits.val, Nat.pow_succ]; ring
  rw [hshift, List.length_cons, Nat.add_mul_mod_self_left, Nat.mod_eq_of_lt hlt]
  exact Bits.val_append_singleton u b

theorem srLoad_of_length_ne {L : Nat} {v : Bits} (h : v.length ≠ L) : srLoad L v = .error .lengthMismatch :=
  if_neg h

/-- Settles O17, from the value of a vector with a bit put behind it. -/
theorem insertShiftsOneBitIn : Obligations.InsertShiftsOneBitIn :=
  fun v b hv => ⟨length_srInsert b v, val_srInsert b hv⟩

/-- Settles O25. -/
theorem loadChecksTheWidth : Obligations.LoadChecksTheWidth :=
  fun _ _ => ⟨fun h => srLoad_eq_ok.2 ⟨h, rfl⟩, srLoad_of_length_ne⟩

/-! Counters (40_primitives.md R79, R80). -/

/-- A count changes nothing exactly at the extreme it counts toward: vectors of one width are equal where their values
are. -/
theorem sat_eq_self_iff (c : Bits) (b : Bool) :
    sat c b = c ↔ if b then c.val = 2 ^ c.length - 1 else c.val = 0 := by
  have hval : sat c b = c ↔ (sat c b).val = c.val := ⟨congrArg Bits.val, Bits.val_inj (length_sat c b)⟩
  have hlt := Bits.val_lt c
  rw [hval, val_sat]
  cases b <;> simp <;> omega

@[simp] theorem predictionBit_cons (b : Bool) (v : Bits) : predictionBit (b :: v) = b := rfl

/-- Settles O50, from Sat in values. -/
theorem satCountsOneStep : Obligations.SatCountsOneStep := by
  refine fun c b => ⟨length_sat c b, val_sat c b, fun h => (sat_eq_self_iff c b).2 ?_⟩
  rcases h with ⟨rfl, hmax⟩ | ⟨rfl, hzero⟩
  · exact hmax
  · exact hzero

/-- Settles O20: the prediction bit is the most significant bit, whose weight is half the range. -/
theorem predictionBitIsUpperHalf : Obligations.PredictionBitIsUpperHalf := by
  intro c hc
  obtain ⟨b, v, rfl⟩ := List.exists_cons_of_ne_nil hc
  rw [predictionBit_cons, List.length_cons, Nat.add_sub_cancel]
  exact Bits.head_iff_val b v

/-! The hash (40_primitives.md R82). -/

/-- What the address `a`, whose first bit stands at position `p` of the whole address, makes of a bit `x` at output
position `j`: the XOR with the bits of `a` whose position in the whole address is `j` modulo `K`. -/
def foldInto (K j p : Nat) (a : Bits) (x : Bool) : Bool :=
  ((List.range a.length).filter (fun i => (p + i) % K == j)).foldl (fun y i => xor y (a.getD i false)) x

theorem foldInto_nil (K j p : Nat) : foldInto K j p [] = id := rfl

theorem foldInto_cons (K j p : Nat) (b : Bool) (a : Bits) (x : Bool) :
    foldInto K j p (b :: a) x = foldInto K j (p + 1) a (if p % K = j then xor x b else x) := by
  have hpos : ∀ i, p + 1 + i = p + (i + 1) := fun i => by omega
  unfold foldInto
  rw [List.length_cons, List.range_succ_eq_map, List.filter_cons, List.filter_map]
  by_cases h : p % K = j <;> simp [h, hpos, List.foldl_map, Function.comp_def]

/-- The loop invariant of Hash: from position `p` on, each accumulator bit takes the address bits of its own residue. -/
theorem getElem?_hashFrom (K p j : Nat) (h a : Bits) :
    (hashFrom K p h a)[j]? = h[j]?.map (foldInto K j p a) := by
  induction a generalizing p h with
  | nil => simp [hashFrom, foldInto_nil]
  | cons b a ih =>
    rw [hashFrom, ih, List.getElem?_modify, Option.map_eq_map, Option.map_map]
    congr 1
    funext x
    exact (foldInto_cons K j p b a x).symm

theorem getElem?_hashFold {K j : Nat} (a : Bits) (h : j < K) :
    (hashFold K a)[j]? = some (foldInto K j 0 a false) := by
  rw [hashFold, getElem?_hashFrom, Bits.zeros, List.getElem?_replicate_of_lt h, Option.map_some]

/-- Settles O21, from the loop invariant at position 0 with the accumulator `0^K`. -/
theorem hashClosedForm : Obligations.HashClosedForm := by
  refine fun K a _ _ => ⟨length_hashFold K a, fun j hj => ?_⟩
  rw [getElem?_hashFold a hj]
  simp only [foldInto, Nat.zero_add]

end Sys2Proof.Machine
end

section
/-!
PROOFS. The operations of the history bank (O23) and of the history table (O24): what each answers, the entry it writes,
and that writing the old table back restores the whole state, which is the frame.
-/

namespace Sys2Proof.Machine

@[simp] theorem State.setBank_setBank (s : State) (t t' : Table) : (s.setBank t).setBank t' = s.setBank t' := rfl

@[simp] theorem State.setPht_setPht (s : State) (t t' : Table) : (s.setPht t).setPht t' = s.setPht t' := rfl

/-! The history bank (40_primitives.md R74 to R77). -/

theorem bankRead_of_present {k : Bits} {s : State} (h : Table.get k s.bank ≠ none) : (bankRead k s).2 = s := by
  obtain ⟨v, hv⟩ := Option.ne_none_iff_exists'.1 h
  rw [bankRead_eq, Table.ensure_of_get hv, State.setBank_self]

theorem bankWrite_of_length_ne {k v : Bits} {s : State} (h : v.length ≠ s.cfg.h) :
    bankWrite k v s = .error .lengthMismatch :=
  if_neg h

/-- Settles O23: each operation is one write to the bank, and a read after that write is `Table.get_put` or
`Table.get_ensure`. -/
theorem bankOperations : Obligations.BankOperations := by
  refine fun s k => ⟨?read, fun b => ?insert, fun v hv => ?write, fun v hv => bankWrite_of_length_ne hv⟩
  case read =>
    refine ⟨(bankRead k s).2, by rw [bankRead_eq], fun k' => ?_, by simp [bankRead_eq], bankRead_of_present⟩
    rw [bankRead_eq]
    exact Table.get_ensure k k' _ _
  case insert =>
    rw [bankInsert_eq]
    exact ⟨fun k' => Table.get_put k k' _ _, by simp⟩
  case write =>
    exact ⟨_, bankWrite_eq_ok.2 ⟨hv, rfl⟩, fun k' => Table.get_put k k' v _, by simp⟩

/-! The history table (40_primitives.md R86 to R88). -/

theorem phtEnsure_of_present {k : Bits} {s : State} (h : Table.get k s.pht ≠ none) : phtEnsure k s = s := by
  obtain ⟨v, hv⟩ := Option.ne_none_iff_exists'.1 h
  rw [phtEnsure, Table.ensure_of_get hv, State.setPht_self]

theorem get_pht_phtEnsure (k k' : Bits) (s : State) :
    Table.get k' (phtEnsure k s).pht = if k' = k then some (s.counterAt k) else Table.get k' s.pht :=
  Table.get_ensure k k' _ _

theorem phtGet_of_absent {k : Bits} {s : State} (hk : k.length = s.cfg.phtKeyWidth) (h : Table.get k s.pht = none) :
    phtGet k s = .error .undefinedEntry := by
  simp [phtGet, hk, h]

theorem phtPut_of_length_ne {k v : Bits} {s : State} (h : v.length ≠ s.cfg.s) :
    phtPut k v s = .error .lengthMismatch :=
  if_neg fun hw => h hw.2

/-- Settles O24, one lemma for each outcome of each operation. -/
theorem historyTableOperations : Obligations.HistoryTableOperations := by
  refine fun s k hk => ⟨phtEnsure_of_present, fun habsent => ⟨fun k' => ?ensure, by simp [phtEnsure]⟩,
    phtGet_of_absent hk, fun v hv => phtGet_eq_ok.2 ⟨hk, hv⟩, fun v hv => ?put, fun v hv => phtPut_of_length_ne hv⟩
  case ensure =>
    rw [get_pht_phtEnsure, State.counterAt, habsent, Option.getD_none]
  case put =>
    exact ⟨_, phtPut_eq_ok.2 ⟨⟨hk, hv⟩, rfl⟩, fun k' => Table.get_put k k' v _, by simp⟩

end Sys2Proof.Machine
end

section
/-!
PROOFS. The indexer (O26): which history register a variant selects, what reading it answers, and the key it gives.
-/

namespace Sys2Proof.Machine

/-! The register selected (41_indexing.md R92, R93), by the two attributes of a variant that decide it. -/

theorem histSel_of_unbanked {c : Cfg} (a : Bits) (h : c.variant.banked = false) : histSel c a = .bhr := by
  simp [histSel, h]

theorem histSel_of_banked {c : Cfg} (a : Bits) (h : c.variant.banked = true) :
    histSel c a = .bank (histKey c a) := by
  simp [histSel, h]

/-- Proj_N of an N-bit address is the address itself. -/
theorem histKey_of_unhashed {c : Cfg} {a : Bits} (hb : c.variant.banked = true) (hh : c.variant.hashed = false)
    (ha : a.length = c.n) : histKey c a = a := by
  unfold histKey
  cases hv : c.variant with
  | GAg | GAp => simp [hv, Variant.banked] at hb
  | PAg | PAp | PAs => exact proj_self ha
  | SAg | SAp | SAs => simp [hv, Variant.hashed] at hh

theorem histKey_of_hashed {c : Cfg} (a : Bits) (hh : c.variant.hashed = true) :
    histKey c a = hashFold c.setWidth a := by
  unfold histKey
  cases hv : c.variant with
  | GAg | GAp | PAg | PAp | PAs => simp [hv, Variant.hashed] at hh
  | SAg | SAp | SAs => rfl

theorem Variant.banked_of_hashed {v : Variant} (h : v.hashed = true) : v.banked = true := by
  cases v with
  | GAg | GAp | PAg | PAp | PAs => simp [Variant.hashed] at h
  | SAg | SAp | SAs => rfl

/-! The value read (R92). -/

theorem histVal_of_bhr {s : State} {a : Bits} (h : histSel s.cfg a = .bhr) : histVal a s = (s.bhr, s) := by
  rw [histVal, h, readHist]

theorem histVal_of_bank {s : State} {a k : Bits} (h : histSel s.cfg a = .bank k) : histVal a s = bankRead k s := by
  rw [histVal, h, readHist]

/-! The three families of variants: no bank, a register for each address, a register for each hashed set. -/

theorem history_of_unbanked {s : State} (a : Bits) (h : s.cfg.variant.banked = false) :
    histSel s.cfg a = .bhr ∧ histVal a s = (s.bhr, s) :=
  have hsel := histSel_of_unbanked a h
  ⟨hsel, histVal_of_bhr hsel⟩

/-- A variant with a bank reads the register of the key `k` that HistKey gives. -/
theorem history_of_histKey {s : State} {a k : Bits} (h : s.cfg.variant.banked = true) (hk : histKey s.cfg a = k) :
    histKey s.cfg a = k ∧ histSel s.cfg a = .bank k ∧ histVal a s = bankRead k s :=
  have hsel := hk ▸ histSel_of_banked a h
  ⟨hk, hsel, histVal_of_bank hsel⟩

theorem history_of_unhashed {s : State} {a : Bits} (hb : s.cfg.variant.banked = true)
    (hh : s.cfg.variant.hashed = false) (ha : a.length = s.cfg.n) :
    histKey s.cfg a = a ∧ histSel s.cfg a = .bank a ∧ histVal a s = bankRead a s :=
  history_of_histKey hb (histKey_of_unhashed hb hh ha)

theorem history_of_hashed {s : State} (a : Bits) (hh : s.cfg.variant.hashed = true) :
    histKey s.cfg a = hashFold s.cfg.setWidth a ∧ histSel s.cfg a = .bank (hashFold s.cfg.setWidth a)
      ∧ histVal a s = bankRead (hashFold s.cfg.setWidth a) s :=
  history_of_histKey (Variant.banked_of_hashed hh) (histKey_of_hashed a hh)

/-! The key formed (R92). -/

theorem index_fst (a : Bits) (s : State) : (index a s).1 = indexKey s.cfg a (histVal a s).1 := rfl

theorem index_snd (a : Bits) (s : State) : (index a s).2 = (histVal a s).2 := rfl

/-- Settles O26: the history by the family of the variant, the key by the variant, and its width from the widths that
`State.wf` gives. -/
theorem indexerTable : Obligations.IndexerTable := by
  refine fun s a hwf ha => ⟨?history, index_snd a s, ?key, ?width⟩
  case history =>
    cases hv : s.cfg.variant with
    | GAg | GAp => exact history_of_unbanked a (by rw [hv]; rfl)
    | PAg | PAp | PAs => exact history_of_unhashed (by rw [hv]; rfl) (by rw [hv]; rfl) ha
    | SAg | SAp | SAs => exact history_of_hashed a (by rw [hv]; rfl)
  case key =>
    cases hv : s.cfg.variant <;> simp [index_fst, indexKey, hv]
  case width =>
    have hw := State.Widths.of_wf hwf
    rw [index_eq]
    exact length_indexOf hw.mem hw.bhr ha

end Sys2Proof.Machine
end

section
/-!
PROOFS. PREDICT whole (O29) and UPDATE whole (O34): the words, the command in each of its cases as one equation, and what
a read of the history registers and of the fault record answers afterwards.
-/

namespace Sys2Proof

theorem BranchResult.ofBit_bit (r : BranchResult) : (if r.bit then .taken else .notTaken) = r := by
  cases r <;> rfl

/-- An outcome's own bit in an UPDATE word decodes to that outcome (30_encoding.md R53). -/
theorem decode_update_bit {n : Nat} {a : Bits} (r : BranchResult) (h : a.length = n) :
    decode n (a ++ [r.bit, false, true]) = .instr (.update a r) := by
  rw [decode_update_word r.bit h, BranchResult.ofBit_bit]

/-- PREDICT has no outcome: t = 1 is reserved (R57). -/
theorem decode_predict_outcome_illegal {n : Nat} {a : Bits} (h : a.length = n) :
    ∃ why, decode n (a ++ [true, false, false]) = .illegal why :=
  (decode_illegal_iff true false false h).2 (.inr (.inl ⟨rfl, rfl, rfl⟩))

end Sys2Proof

namespace Sys2Proof.Machine

/-! What the two commands leave in the history registers. -/

/-- Reading the register of address `a` makes that register present with the content it had, and no other. -/
theorem get_bankAfterRead (s : State) (a k : Bits) :
    Table.get k (s.bankAfterRead a) =
      if histSel s.cfg a = .bank k then some (s.histContent (.bank k)) else Table.get k s.bank := by
  unfold State.bankAfterRead
  cases histSel s.cfg a with
  | bhr => simp
  | bank key =>
    rw [Table.get_ensure]
    by_cases h : k = key
    · subst h; simp [State.histContent]
    · simp [h, Ne.symm h]

/-- Shifting a bit in for address `a` writes the register selected there, and no other. -/
theorem get_bankAfterShift (s : State) (a k : Bits) (b : Bool) :
    Table.get k (s.bankAfterShift a b) =
      if histSel s.cfg a = .bank k then some (srInsert b (s.histContent (.bank k))) else Table.get k s.bank := by
  unfold State.bankAfterShift
  cases histSel s.cfg a with
  | bhr => simp
  | bank key =>
    rw [Table.get_put]
    by_cases h : k = key
    · subst h; simp
    · simp [h, Ne.symm h]

theorem bhrAfterShift_eq (s : State) (a : Bits) (b : Bool) :
    s.bhrAfterShift a b = if histSel s.cfg a = .bhr then srInsert b s.bhr else s.bhr := by
  unfold State.bhrAfterShift
  cases histSel s.cfg a <;> simp

/-! What PREDICT leaves in the history table; `Table.get_put` says it for UPDATE. -/

theorem get_pht_afterPredict (s : State) (a k : Bits) :
    Table.get k (s.afterPredict a).pht =
      if k = s.indexOf a then some (s.counterAt (s.indexOf a)) else Table.get k s.pht :=
  get_pht_phtEnsure (s.indexOf a) k s

/-! The fault record. -/

/-- While no fault is recorded, FCODE is 000 (10_state.md R30). -/
theorem State.fcode_of_no_fault {s : State} (hwf : s.wf = true) (hf : s.fault = false) : s.fcode = 0b000#3 := by
  obtain ⟨-, -, hrecord, -⟩ := (State.wf_iff s).1 hwf
  obtain ⟨⟨-, hcode⟩, -⟩ : (s.cfg.illegal = false ∧ s.fcode = 0b000#3) ∧ s.fcmd = Bits.zeros s.cfg.wordWidth := by
    simpa [State.faultRecordWf, hf] using hrecord
  exact hcode

/-- A raised fault as an update of the state: the fault record and one response (60_exceptions.md R127, R131). -/
theorem raiseFault_eq (f : EngineFault) (word : Bits) (s : State) :
    raiseFault f word s =
      { s with
        fault := true, fcode := f.code, fcmd := word
        output := s.output ++ [⟨responseWord false s.pend true f.code false, none⟩] } := rfl

/-! The two commands while FAULT = 0, case by case. -/

theorem exec_predict_of_pend {s : State} {a : Bits} (hw : s.Widths) (ha : a.length = s.cfg.n) (hf : s.fault = false)
    (hp : s.pend = true) : exec (.predict a) s = .next (raiseFault .protocolViolation (a ++ [false, false, false]) s) := by
  rw [exec, execPredict_cases hw ha]
  simp [hf, hp, encode]

theorem exec_predict_of_idle {s : State} {a : Bits} (hw : s.Widths) (ha : a.length = s.cfg.n) (hf : s.fault = false)
    (hp : s.pend = false) : exec (.predict a) s =
      .next (respond (predictionBit (s.counterAt (s.indexOf a))) false none (s.afterPredict a)) := by
  rw [exec, execPredict_cases hw ha]
  simp [hf, hp]

theorem exec_update_of_violation {s : State} {a : Bits} {r : BranchResult} (hw : s.Widths) (ha : a.length = s.cfg.n)
    (hf : s.fault = false) (hv : s.pend = false ∨ s.paddr ≠ a) : exec (.update a r) s =
      .next (raiseFault .protocolViolation (a ++ [r.bit, false, true]) s) := by
  have hmatch : ¬ (s.pend = true ∧ s.paddr = a) := by simpa [or_iff_not_imp_left] using hv
  rw [exec, execUpdate_cases hw ha, if_neg hmatch]
  simp [hf, encode]

theorem exec_update_of_match {s : State} {a : Bits} {r : BranchResult} (hw : s.Widths) (hf : s.fault = false)
    (hp : s.pend = true) (ha : s.paddr = a) :
    exec (.update a r) s = .next (respond false false none (s.afterUpdate a r)) := by
  rw [exec, execUpdate_cases hw (ha ▸ hw.paddr), if_pos (And.intro hp ha)]
  simp [hf]

/-- Settles O29: the decoder gives the word's two clauses, the state after a raised fault the third, and `afterPredict`,
read table by table, the fourth. -/
theorem predictMeaning : Obligations.PredictMeaning := by
  intro s a hwf ha hf
  have hw := State.Widths.of_wf hwf
  have hcode := State.fcode_of_no_fault hwf hf
  refine ⟨decode_fields false false false ha, decode_predict_outcome_illegal ha, fun hp => ?pending, fun hp => ?idle⟩
  case pending =>
    rw [exec_predict_of_pend hw ha hf hp, raiseFault_eq, hp]
    rfl
  case idle =>
    refine ⟨_, exec_predict_of_idle hw ha hf hp, get_pht_afterPredict s a, get_bankAfterRead s a, rfl, rfl, rfl, ?_,
      rfl, rfl, hf, hcode, rfl, rfl⟩
    simp [hf, hcode]

/-- Settles O34: as O29, with `afterUpdate`; the index and the register written are of the state before the shift. -/
theorem updateMeaning : Obligations.UpdateMeaning := by
  intro s a r hwf ha hf
  have hw := State.Widths.of_wf hwf
  have hcode := State.fcode_of_no_fault hwf hf
  refine ⟨decode_update_bit r ha, exec_update_of_violation hw ha hf, fun ⟨hp, hpa⟩ => ?matching⟩
  refine ⟨_, exec_update_of_match hw hf hp hpa, rfl, fun k => Table.get_put (s.indexOf a) k _ s.pht,
    bhrAfterShift_eq s a r.bit, fun k => get_bankAfterShift s a k r.bit, rfl, hpa, ?_, rfl, hf, hcode, rfl, rfl⟩
  simp [hf, hcode]

end Sys2Proof.Machine
end

section
/-!
PROOFS. MONITOR whole (O38): its word, and that the snapshot's tables are the canonical tables of the state.
-/

namespace Sys2Proof

theorem decode_monitor_word (n : Nat) : decode n (Bits.zeros n ++ [false, true, false]) = .instr .monitor := by
  rw [decode_fields false true false (Bits.length_zeros n)]
  simp

end Sys2Proof

namespace Sys2Proof.Machine

/-- The entries of a canonical table stand in ascending order of key. -/
theorem Table.pairwise_of_wf {kw vw : Nat} {t : Table} (h : Table.wf kw vw t = true) :
    t.Pairwise (fun x y => x.1.val < y.1.val) :=
  (List.pairwise_map (f := Prod.fst)).1 ((Table.wf_iff kw vw t).1 h).2

/-- The snapshot shows BHR exactly where the variant has one (42_operations.md R119). -/
theorem snapshotOf_bhr_of_unbanked {s : State} (h : s.cfg.variant.banked = false) : (snapshotOf s).bhr = some s.bhr := by
  simp [snapshotOf, h]

theorem snapshotOf_bhr_of_banked {s : State} (h : s.cfg.variant.banked = true) : (snapshotOf s).bhr = none := by
  simp [snapshotOf, h]

/-- Settles O38: MONITOR answers `snapshotOf`, whose tables are the state's own; that these are canonical makes them the
lists R119 asks for. -/
theorem monitorMeaning : Obligations.MonitorMeaning := by
  intro s hwf
  obtain ⟨hbank, -, hpht⟩ := (Memory.wf_iff s).1 (State.Widths.of_wf hwf).mem
  refine ⟨decode_monitor_word s.cfg.n,
    fun a t ha hreserved => (decode_illegal_iff t true false ha).2 (.inr (.inr ⟨rfl, rfl, hreserved⟩)),
    snapshotOf s, rfl, rfl, rfl, rfl, rfl, rfl, rfl, rfl, ?bhr, Table.mem_iff_get hbank, Table.mem_iff_get hpht,
    Table.pairwise_of_wf hbank, Table.pairwise_of_wf hpht⟩
  case bhr =>
    cases hv : s.cfg.variant with
    | GAg | GAp => exact snapshotOf_bhr_of_unbanked (by rw [hv]; rfl)
    | PAg | PAp | PAs | SAg | SAp | SAs => exact snapshotOf_bhr_of_banked (by rw [hv]; rfl)

end Sys2Proof.Machine
end

section
/-!
PROOFS. CONFIG_ERROR (O11): the conditions of 60_exceptions.md R128 on a held configuration, and the same on a presented
one, whose K and HASH_MODE are held only where the variant takes them.
-/

namespace Sys2Proof

theorem Variant.takesK_iff_mem (v : Variant) : v.takesK = true ↔ v ∈ [Variant.PAs, .SAg, .SAp, .SAs] := by
  cases v <;> simp [Variant.takesK]

theorem Variant.hashed_iff_mem (v : Variant) : v.hashed = true ↔ v ∈ [Variant.SAg, .SAp, .SAs] := by
  cases v <;> simp [Variant.hashed]

/-- Conditions 1 to 4 of R128 on a held configuration. -/
theorem Cfg.illegal_iff (c : Cfg) :
    c.illegal = true ↔
      (c.n < 1 ∨ c.h < 1 ∨ c.s < 1)
      ∨ (c.variant.takesK = true ∧ (c.setWidth < 1 ∨ c.setWidth > c.n))
      ∨ (c.variant.hashed = true ∧ c.hashMode ≠ some 0)
      ∨ c.countMode ≠ 0 := by
  simp [Cfg.illegal, or_assoc]

theorem Cfg.setWidth_ofInput {c : CfgInput} (h : (Variant.ofCode c.variant).takesK = true) :
    (Cfg.ofInput c).setWidth = c.k := by
  simp [Cfg.setWidth, Cfg.ofInput, h]

theorem Cfg.hashMode_ofInput {c : CfgInput} (h : (Variant.ofCode c.variant).hashed = true) :
    (Cfg.ofInput c).hashMode = some c.hashMode := by
  simp [Cfg.ofInput, h]

/-- Conditions 1 to 4 of R128 on a presented configuration. -/
theorem Cfg.illegal_ofInput_iff (c : CfgInput) :
    (Cfg.ofInput c).illegal = true ↔
      (c.n < 1 ∨ c.h < 1 ∨ c.s < 1)
      ∨ (Variant.ofCode c.variant ∈ [Variant.PAs, .SAg, .SAp, .SAs] ∧ (c.k < 1 ∨ c.k > c.n))
      ∨ (Variant.ofCode c.variant ∈ [Variant.SAg, .SAp, .SAs] ∧ c.hashMode ≠ 0)
      ∨ c.countMode ≠ 0 := by
  rw [Cfg.illegal_iff, ← Variant.takesK_iff_mem, ← Variant.hashed_iff_mem]
  refine or_congr Iff.rfl (or_congr (and_congr_right fun hk => ?_) (or_congr (and_congr_right fun hh => ?_) Iff.rfl))
  · rw [Cfg.setWidth_ofInput hk]; rfl
  · rw [Cfg.hashMode_ofInput hh, ne_eq, Option.some_inj]

end Sys2Proof

namespace Sys2Proof.Machine

/-- Reset comes up with CONFIG_ERROR exactly where the configuration is illegal (70_reset_and_hazards.md R144). -/
theorem resetWith_configError_iff (c : Cfg) :
    (State.resetWith c).fault = true ∧ (State.resetWith c).fcode = 0b001#3 ↔ c.illegal = true := by
  cases h : c.illegal <;> simp [State.resetWith, h]

theorem step_reset {s : State} {c : CfgInput} {rest : List Input} (h : s.input = .reset c :: rest) :
    step s = .next (acceptReset c rest) := by
  simp [step, acceptNext, h]

/-- Settles O11. -/
theorem configErrorConditions : Obligations.ConfigErrorConditions :=
  fun _ c _ hin => ⟨_, step_reset hin, (resetWith_configError_iff (Cfg.ofInput c)).trans (Cfg.illegal_ofInput_iff c)⟩

end Sys2Proof.Machine
end

section
/-!
PROOFS. What a command that raises a fault leaves: an ILLEGAL word (O40), the order of PREDICT and UPDATE (O41), and from
these that every raised fault is precise (O42).
-/

namespace Sys2Proof

/-- A word is the command word of the instruction it decodes to (30_encoding.md R55, R57). -/
theorem encode_eq_of_decode {n : Nat} {w : Bits} {i : Instr} (h : decode n w = .instr i) : encode n i = w := by
  obtain ⟨a, t, o₁, o₀, ha, rfl⟩ := word_fields (length_of_decode (by rw [h]; nofun))
  rw [decode_fields t o₁ o₀ ha] at h
  split at h
  case h_5 => -- op 10 is MONITOR only where t and the address are zero
    split at h
    · next hz =>
      obtain ⟨rfl, rfl⟩ := hz
      cases h; rfl
    · cases h
  all_goals simp at h
  all_goals subst h; rfl

end Sys2Proof

namespace Sys2Proof.Machine

/-! The commands that raise, while FAULT = 0. None of these needs the state's widths: the fault comes before any table is
read. -/

theorem execute_of_illegal {s : State} {w : Bits} (hd : ∃ why, decode s.cfg.n w = .illegal why) (hf : s.fault = false) :
    execute w s = .next (raiseFault .illegalCommand w s) := by
  obtain ⟨why, hd⟩ := hd
  simp [execute, hd, execIllegal, runCommand_of_error hf]

theorem exec_predict_raises {s : State} {a : Bits} (ha : a.length = s.cfg.n) (hf : s.fault = false)
    (hp : s.pend = true) :
    exec (.predict a) s = .next (raiseFault .protocolViolation (encode s.cfg.n (.predict a)) s) := by
  rw [exec, execPredict, if_pos ha, runCommand_of_error hf (predictBody_of_pend hp)]

theorem exec_update_raises {s : State} {a : Bits} {r : BranchResult} (ha : a.length = s.cfg.n) (hf : s.fault = false)
    (hv : s.pend = false ∨ s.paddr ≠ a) :
    exec (.update a r) s = .next (raiseFault .protocolViolation (encode s.cfg.n (.update a r)) s) := by
  rw [exec, execUpdate, if_pos ha, runCommand_of_error hf (updateBody_of_violation hv)]

/-- Settles O40: the three kinds of word are the decoder's ILLEGAL words. -/
theorem illegalWordRaises : Obligations.IllegalWordRaises := by
  intro s a t o₁ o₀ rest ha hin hf hkind
  have hraise := execute_of_illegal (s := s.setInput rest) ((decode_illegal_iff t o₁ o₀ ha).2 hkind) hf
  rw [step_command hin, hraise, raiseFault_eq]
  rfl

/-- Settles O41: each case raises, and `raiseFault_eq` is what raising leaves. -/
theorem protocolViolations : Obligations.ProtocolViolations := by
  refine fun s a r ha hf => ⟨fun hp => ?predict, fun hp => ?idle, fun hp hne => ?otherAddress⟩
  case predict => rw [exec_predict_raises ha hf hp, raiseFault_eq, hp]; rfl
  case idle => rw [exec_update_raises ha hf (.inl hp), raiseFault_eq, hp]; rfl
  case otherAddress => rw [exec_update_raises ha hf (.inr hne), raiseFault_eq, hp]; rfl

/-- The one way an instruction takes FAULT from 0 to 1 is by raising a fault with its own word: where it completes, it leaves
the fault record alone. -/
theorem exec_eq_raiseFault {i : Instr} {s t : State} (hw : s.Widths) (hi : i.wf s.cfg.n = true) (hf : s.fault = false)
    (h : exec i s = .next t) (ht : t.fault = true) : ∃ f, t = raiseFault f (encode s.cfg.n i) s := by
  cases i with
  | predict a =>
    have ha : a.length = s.cfg.n := beq_iff_eq.1 hi
    cases hp : s.pend with
    | true =>
      rw [exec_predict_raises ha hf hp] at h
      cases h; exact ⟨_, rfl⟩
    | false =>
      rw [exec_predict_of_idle hw ha hf hp] at h
      cases h; simp [hf] at ht
  | update a r =>
    have ha : a.length = s.cfg.n := beq_iff_eq.1 hi
    by_cases hv : s.pend = false ∨ s.paddr ≠ a
    · rw [exec_update_raises ha hf hv] at h
      cases h; exact ⟨_, rfl⟩
    · obtain ⟨hp, hpa⟩ : s.pend = true ∧ s.paddr = a := by simpa using hv
      rw [exec_update_of_match hw hf hp hpa] at h
      cases h; simp [hf] at ht
  | monitor =>
    cases h; simp [hf] at ht

theorem execute_eq_raiseFault {w : Bits} {s t : State} (hw : s.Widths) (hf : s.fault = false)
    (h : execute w s = .next t) (ht : t.fault = true) : ∃ f, t = raiseFault f w s := by
  cases hd : decode s.cfg.n w with
  | instr i =>
    rw [execute, hd] at h
    rw [← encode_eq_of_decode hd]
    exact exec_eq_raiseFault hw (wf_of_decode hd) hf h ht
  | illegal why =>
    rw [execute_of_illegal ⟨why, hd⟩ hf] at h
    cases h; exact ⟨_, rfl⟩
  | wrongWidth => simp [execute, hd] at h

/-- Settles O42: the state left is the one `raiseFault` makes, which is the fault record written and one response. -/
theorem faultsArePrecise : Obligations.FaultsArePrecise := by
  intro s t w rest hwf hin hf hstep ht
  rw [step_command hin] at hstep
  obtain ⟨f, rfl⟩ := execute_eq_raiseFault ((State.Widths.of_wf hwf).setInput rest) hf hstep ht
  rfl

end Sys2Proof.Machine
end

section
/-!
PROOFS. The fault state is sticky (O43): what each command word answers there, as a function of the state and the word,
and by induction the answers of a whole stream.
-/

namespace Sys2Proof.Machine

/-- What a command word gets in the fault state: MONITOR its snapshot, every other word the refusal (60_exceptions.md
R132). -/
def State.faultedResponse (s : State) (w : Bits) : Response :=
  if isMonitorWord s.cfg.n w then ⟨responseWord false s.pend true s.fcode false, some (snapshotOf s)⟩
  else ⟨responseWord false s.pend true s.fcode true, none⟩

theorem State.faultedResponse_of_not_monitor {s : State} {w : Bits} (h : isMonitorWord s.cfg.n w = false) :
    s.faultedResponse w = ⟨responseWord false s.pend true s.fcode true, none⟩ := by
  simp [State.faultedResponse, h]

@[simp] theorem State.faultedResponse_emit (s : State) (r : Response) :
    (s.emit r).faultedResponse = s.faultedResponse := rfl

theorem refuse_eq_emit {s : State} (hf : s.fault = true) :
    refuse s = s.emit ⟨responseWord false s.pend true s.fcode true, none⟩ := by
  rw [refuse, respond, hf]

theorem exec_of_fault {i : Instr} {s : State} (hi : i.wf s.cfg.n = true) (hf : s.fault = true) (hm : i ≠ .monitor) :
    exec i s = .next (refuse s) := by
  cases i with
  | predict a =>
    have ha : a.length = s.cfg.n := beq_iff_eq.1 hi
    rw [exec, execPredict, if_pos ha, runCommand_of_fault hf]
  | update a r =>
    have ha : a.length = s.cfg.n := beq_iff_eq.1 hi
    rw [exec, execUpdate, if_pos ha, runCommand_of_fault hf]
  | monitor => exact absurd rfl hm

/-- In the fault state a presentable word gets its answer and does nothing else. -/
theorem execute_of_fault {w : Bits} {s : State} (hl : w.length = s.cfg.n + 3) (hf : s.fault = true) :
    execute w s = .next (s.emit (s.faultedResponse w)) := by
  unfold execute State.faultedResponse isMonitorWord
  cases hd : decode s.cfg.n w with
  | instr i =>
    by_cases hm : i = .monitor
    · subst hm
      simp [exec, execMonitor, respond, hf]
    · simp [hm, exec_of_fault (wf_of_decode hd) hf hm, refuse_eq_emit hf]
  | illegal why => simp [execIllegal, runCommand_of_fault hf, refuse_eq_emit hf]
  | wrongWidth => exact absurd hd (decode_ne_wrongWidth hl)

/-! Command streams (70_reset_and_hazards.md R154). -/

theorem run_succ_of_step {M : Host.Core} {k : Nat} {s t : M.State} (h : M.step s = .next t) :
    M.run (k + 1) s = M.run k t := by
  rw [Host.Core.run, h]

theorem runWords_nil (s : State) : runWords [] s = .next (present [] s) := rfl

/-- A stream whose first word completes goes on with its other words. -/
theorem runWords_cons {w : Bits} {words : List Bits} {s t : State}
    (h : execute w (present words s) = .next (present words t)) : runWords (w :: words) s = runWords words t :=
  run_succ_of_step (M := core) ((step_command (s := present (w :: words) s) rfl).trans h)

/-- In the fault state a stream runs to its end, each word getting its answer, and the engine keeps its state. -/
theorem runWords_of_fault {words : List Bits} {s : State} (hf : s.fault = true) (hw : presentable s.cfg.n words) :
    ∃ t, runWords words s = .next t ∧ t.engine = s.engine ∧ t.output = s.output ++ words.map s.faultedResponse := by
  induction words generalizing s with
  | nil => exact ⟨_, runWords_nil s, rfl, (List.append_nil _).symm⟩
  | cons w words ih =>
    obtain ⟨hl, hrest⟩ := List.forall_mem_cons.1 hw
    obtain ⟨t, hrun, hengine, hout⟩ := ih (s := s.emit (s.faultedResponse w)) hf hrest
    refine ⟨t, (runWords_cons (execute_of_fault (s := present words s) hl hf)).trans hrun, hengine, ?_⟩
    simpa using hout

/-- Settles O43: the answers of the stream, read at one position. -/
theorem faultStateIsSticky : Obligations.FaultStateIsSticky := by
  intro s words hf hw
  obtain ⟨t, hrun, hengine, hout⟩ := runWords_of_fault hf hw
  refine ⟨t, hrun, hengine, by simp [hout], fun j w hj hm => ?_⟩
  rw [hout, List.getElem?_append_right (Nat.le_add_right _ _), Nat.add_sub_cancel_left, List.getElem?_map, hj,
    Option.map_some, State.faultedResponse_of_not_monitor hm]

end Sys2Proof.Machine
end

section
/-!
PROOFS. The encoder against the decoder (O1, O2).
-/

namespace Sys2Proof

/-- Settles O1, one case for each command: its word is written as its three fields. -/
theorem decodeOfEncode : Obligations.DecodeOfEncode := by
  intro n i hi
  cases i with
  | predict a => exact decode_fields false false false (beq_iff_eq.1 hi)
  | update a r => exact decode_update_bit r (beq_iff_eq.1 hi)
  | monitor => exact decode_monitor_word n

/-- Settles O2. -/
theorem encodeOfDecode : Obligations.EncodeOfDecode :=
  fun _ _ _ h => ⟨wf_of_decode h, encode_eq_of_decode h⟩

end Sys2Proof
end

section
/-!
PROOFS. What a command word does, as one function of the state and the word: `State.accept`. The state left is
`State.afterWord`, a function of the engine's state that leaves the model's input and output alone, and the response is
`State.responseTo`. `execute_eq_accept` ties them to the machine; the statements about whole steps and about streams go
through it.
-/

namespace Sys2Proof.Machine

/-- What a completed instruction leaves while FAULT = 0, its response apart (42_operations.md R109, R114, R119;
60_exceptions.md R130). -/
def State.afterInstr (s : State) : Instr → State
  | .predict a =>
    if s.pend then s.setFault EngineFault.protocolViolation.code (encode s.cfg.n (.predict a)) else s.afterPredict a
  | .update a r =>
    if s.pend = true ∧ s.paddr = a then s.afterUpdate a r
    else s.setFault EngineFault.protocolViolation.code (encode s.cfg.n (.update a r))
  | .monitor => s

/-- What a command word leaves, its response apart (42_operations.md R108; 60_exceptions.md R129, R132). -/
def State.afterWord (s : State) (w : Bits) : State :=
  if s.fault then s
  else
    match decode s.cfg.n w with
    | .instr i => s.afterInstr i
    | _ => s.setFault EngineFault.illegalCommand.code w

/-- What a command word is answered (30_encoding.md R59, R61). -/
def State.responseTo (s : State) (w : Bits) : Response :=
  let t := s.afterWord w
  { word := responseWord (s.predicts w && predictionBit t.ctr) t.pend t.fault t.fcode
      (s.fault && !isMonitorWord s.cfg.n w)
    snapshot := if isMonitorWord s.cfg.n w then some (snapshotOf s) else none }

/-- The state after a command word and its response. -/
def State.accept (s : State) (w : Bits) : State := (s.afterWord w).emit (s.responseTo w)

/-! The cases of `afterWord`. -/

theorem State.afterWord_of_fault {s : State} (w : Bits) (hf : s.fault = true) : s.afterWord w = s := by
  simp [State.afterWord, hf]

theorem State.afterWord_of_instr {s : State} {w : Bits} {i : Instr} (hf : s.fault = false)
    (hd : decode s.cfg.n w = .instr i) : s.afterWord w = s.afterInstr i := by
  simp [State.afterWord, hf, hd]

theorem State.afterWord_of_illegal {s : State} {w : Bits} {why : IllegalWord} (hf : s.fault = false)
    (hd : decode s.cfg.n w = .illegal why) : s.afterWord w = s.setFault EngineFault.illegalCommand.code w := by
  simp [State.afterWord, hf, hd]

theorem State.afterInstr_predict_of_pend {s : State} (a : Bits) (hp : s.pend = true) : s.afterInstr (.predict a) =
    s.setFault EngineFault.protocolViolation.code (encode s.cfg.n (.predict a)) :=
  if_pos hp

theorem State.afterInstr_predict_of_idle {s : State} (a : Bits) (hp : s.pend = false) :
    s.afterInstr (.predict a) = s.afterPredict a := by
  simp [State.afterInstr, hp]

theorem State.afterInstr_update_of_match {s : State} {a : Bits} (r : BranchResult) (h : s.pend = true ∧ s.paddr = a) :
    s.afterInstr (.update a r) = s.afterUpdate a r :=
  if_pos h

theorem State.afterInstr_update_of_violation {s : State} {a : Bits} (r : BranchResult)
    (h : ¬ (s.pend = true ∧ s.paddr = a)) : s.afterInstr (.update a r) =
    s.setFault EngineFault.protocolViolation.code (encode s.cfg.n (.update a r)) :=
  if_neg h

/-- Whatever holds of the state found, of a fault recorded on it, and of the states PREDICT and UPDATE leave when they
complete, holds after every command word. -/
theorem State.afterWord_induction {P : State → Prop} {s : State} {w : Bits} (hsame : P s)
    (hfault : ∀ f : EngineFault, f = .illegalCommand ∨ f = .protocolViolation → s.fault = false →
      P (s.setFault f.code w))
    (hpredict : ∀ a, a.length = s.cfg.n → s.fault = false → s.pend = false → P (s.afterPredict a))
    (hupdate : ∀ r, s.fault = false → s.pend = true → P (s.afterUpdate s.paddr r)) : P (s.afterWord w) := by
  cases hf : s.fault with
  | true => rwa [afterWord_of_fault w hf]
  | false =>
    unfold State.afterWord
    rw [hf, if_neg Bool.false_ne_true]
    split
    · next i hd =>
      have hword := encode_eq_of_decode hd
      cases i with
      | predict a =>
        cases hp : s.pend with
        | true => rw [afterInstr_predict_of_pend a hp, hword]; exact hfault _ (.inr rfl) hf
        | false => rw [afterInstr_predict_of_idle a hp]; exact hpredict a (beq_iff_eq.1 (wf_of_decode hd)) hf hp
      | update a r =>
        by_cases hm : s.pend = true ∧ s.paddr = a
        · rw [afterInstr_update_of_match r hm, ← hm.2]; exact hupdate r hf hm.1
        · rw [afterInstr_update_of_violation r hm, hword]; exact hfault _ (.inr rfl) hf
      | monitor => exact hsame
    · exact hfault _ (.inl rfl) hf

/-! What the model's input and output have to do with it: nothing. -/

theorem State.afterWord_frame (s : State) (w : Bits) :
    (s.afterWord w).cfg = s.cfg ∧ (s.afterWord w).input = s.input ∧ (s.afterWord w).output = s.output :=
  State.afterWord_induction (P := fun t => t.cfg = s.cfg ∧ t.input = s.input ∧ t.output = s.output)
    ⟨rfl, rfl, rfl⟩ (fun _ _ _ => ⟨rfl, rfl, rfl⟩) (fun _ _ _ _ => ⟨rfl, rfl, rfl⟩) fun _ _ _ => ⟨rfl, rfl, rfl⟩

@[simp] theorem State.accept_cfg (s : State) (w : Bits) : (s.accept w).cfg = s.cfg := (s.afterWord_frame w).1

@[simp] theorem State.accept_input (s : State) (w : Bits) : (s.accept w).input = s.input := (s.afterWord_frame w).2.1

@[simp] theorem State.accept_output (s : State) (w : Bits) : (s.accept w).output = s.output ++ [s.responseTo w] := by
  rw [accept, emit_output, (s.afterWord_frame w).2.2]

end Sys2Proof.Machine
end

section
/-!
PROOFS. The machine executes a command word as `State.accept` says, and nothing of what was answered
before plays a part in it (O9).
-/

namespace Sys2Proof.Machine

/-! One command. -/

theorem State.responseTo_of_fault {s : State} (w : Bits) (hf : s.fault = true) :
    s.responseTo w = s.faultedResponse w := by
  have hpred : s.predicts w = false := by simpa [hf] using mt (State.predicts_iff s w).1
  cases hm : isMonitorWord s.cfg.n w <;>
    simp [responseTo, faultedResponse, afterWord_of_fault w hf, hf, hm, hpred]

/-- Where FAULT = 0 and the word is not MONITOR's, the answer is a response on the state the word leaves. -/
theorem State.accept_eq_respond {s u : State} {w : Bits} {pred : Bool} (hf : s.fault = false)
    (hm : isMonitorWord s.cfg.n w = false) (hafter : s.afterWord w = u)
    (hpred : (s.predicts w && predictionBit u.ctr) = pred) : s.accept w = respond pred false none u := by
  simp [accept, responseTo, respond, hf, hm, hafter, hpred]

theorem exec_eq_accept {i : Instr} {s : State} {w : Bits} (hw : s.Widths) (hf : s.fault = false)
    (hd : decode s.cfg.n w = .instr i) : exec i s = .next (s.accept w) := by
  have hafter := State.afterWord_of_instr hf hd
  have hword := encode_eq_of_decode hd
  cases i with
  | predict a =>
    have ha : a.length = s.cfg.n := beq_iff_eq.1 (wf_of_decode hd)
    have hm : isMonitorWord s.cfg.n w = false := by simp [isMonitorWord, hd]
    cases hp : s.pend with
    | true =>
      rw [State.afterInstr_predict_of_pend a hp, hword] at hafter
      rw [exec_predict_raises ha hf hp, hword,
        State.accept_eq_respond (pred := false) hf hm hafter (by simp [State.predicts, hd, hp])]
      rfl
    | false =>
      rw [State.afterInstr_predict_of_idle a hp] at hafter
      rw [exec_predict_of_idle hw ha hf hp,
        State.accept_eq_respond (pred := predictionBit (s.counterAt (s.indexOf a))) hf hm hafter
          (by simp [State.predicts, hd, hf, hp])]
  | update a r =>
    have ha : a.length = s.cfg.n := beq_iff_eq.1 (wf_of_decode hd)
    have hm : isMonitorWord s.cfg.n w = false := by simp [isMonitorWord, hd]
    have hpred : s.predicts w = false := by simp [State.predicts, hd]
    by_cases hmatch : s.pend = true ∧ s.paddr = a
    · rw [State.afterInstr_update_of_match r hmatch] at hafter
      rw [exec_update_of_match hw hf hmatch.1 hmatch.2,
        State.accept_eq_respond (pred := false) hf hm hafter (by simp [hpred])]
    · rw [State.afterInstr_update_of_violation r hmatch, hword] at hafter
      rw [exec_update_raises ha hf (by simpa [or_iff_not_imp_left] using hmatch), hword,
        State.accept_eq_respond (pred := false) hf hm hafter (by simp [hpred])]
      rfl
  | monitor =>
    have hs : s.afterWord w = s := hafter
    simp [exec, execMonitor, State.accept, State.responseTo, State.predicts, isMonitorWord, hs, hd, hf, respond]

/-- A presentable word completes, and `State.accept` is what it does (42_operations.md R108). -/
theorem execute_eq_accept {w : Bits} {s : State} (hw : s.Widths) (hl : w.length = s.cfg.n + 3) :
    execute w s = .next (s.accept w) := by
  cases hf : s.fault with
  | true => rw [execute_of_fault hl hf, State.accept, State.afterWord_of_fault w hf, State.responseTo_of_fault w hf]
  | false =>
    cases hd : decode s.cfg.n w with
    | instr i => simpa only [execute, hd] using exec_eq_accept hw hf hd
    | illegal why =>
      rw [execute_of_illegal ⟨why, hd⟩ hf, State.accept_eq_respond (pred := false) hf (by simp [isMonitorWord, hd])
        (State.afterWord_of_illegal hf hd) (by simp [State.predicts, hd])]
      rfl
    | wrongWidth => exact absurd hd (decode_ne_wrongWidth hl)

/-- A word that completes is one that could be presented (30_encoding.md R52). -/
theorem length_of_execute {w : Bits} {s t : State} (h : execute w s = .next t) : w.length = s.cfg.n + 3 :=
  length_of_decode fun hd => by simp [execute, hd] at h

theorem accept_of_execute {w : Bits} {s t : State} (hw : s.Widths) (h : execute w s = .next t) :
    w.length = s.cfg.n + 3 ∧ t = s.accept w := by
  have hl := length_of_execute h
  rw [execute_eq_accept hw hl] at h
  cases h
  exact ⟨hl, rfl⟩

/-! The model's input and output play no part (42_operations.md R121). -/

/-- A change of view `φ` that keeps what the words are decided by, and that faults, PREDICT and UPDATE commute with,
commutes with every command word. -/
theorem State.afterWord_map (φ : State → State) {s : State} (w : Bits) (hn : (φ s).cfg.n = s.cfg.n)
    (hfault : (φ s).fault = s.fault) (hpend : (φ s).pend = s.pend) (hpaddr : (φ s).paddr = s.paddr)
    (hset : ∀ code w, (φ s).setFault code w = φ (s.setFault code w))
    (hpredict : ∀ a, a.length = s.cfg.n → (φ s).afterPredict a = φ (s.afterPredict a))
    (hupdate : ∀ a r, a.length = s.cfg.n → (φ s).afterUpdate a r = φ (s.afterUpdate a r)) :
    (φ s).afterWord w = φ (s.afterWord w) := by
  unfold State.afterWord
  rw [hfault, hn]
  split
  · rfl
  · split
    · next i hd =>
      have hi := wf_of_decode hd
      cases i with
      | predict a => simp only [afterInstr, hpend, hn, hset, hpredict a (beq_iff_eq.1 hi), apply_ite φ]
      | update a r => simp only [afterInstr, hpend, hpaddr, hn, hset, hupdate a r (beq_iff_eq.1 hi), apply_ite φ]
      | monitor => rfl
    · exact hset _ _

theorem State.afterWord_engine (s : State) (w : Bits) : s.engine.afterWord w = (s.afterWord w).engine :=
  State.afterWord_map State.engine w rfl rfl rfl rfl (fun _ _ => rfl) (fun _ _ => rfl) fun _ _ _ => rfl

theorem State.responseTo_engine (s : State) (w : Bits) : s.engine.responseTo w = s.responseTo w := by
  unfold State.responseTo
  rw [State.afterWord_engine]
  rfl

section
variable {s s' : State} (h : s.engine = s'.engine)
include h

theorem State.accept_engine_congr (w : Bits) : (s.accept w).engine = (s'.accept w).engine := by
  rw [accept, accept, engine_emit, engine_emit, ← afterWord_engine, ← afterWord_engine, h]

theorem State.responseTo_congr (w : Bits) : s.responseTo w = s'.responseTo w := by
  rw [← responseTo_engine, h, responseTo_engine]

end

theorem State.accept_setInput (s : State) (w : Bits) (l : List Input) :
    (s.setInput l).accept w = (s.accept w).setInput l := by
  have hengine : (s.setInput l).engine = s.engine := rfl
  apply State.ext_engine
  · exact State.accept_engine_congr hengine w
  · simp
  · simp [State.responseTo_congr hengine w]

theorem State.Widths.of_engine_eq {s s' : State} (hw : s.Widths) (h : s.engine = s'.engine) : s'.Widths :=
  have he : s.engine.Widths := ⟨hw.mem, hw.bhr, hw.ctr, hw.paddr, hw.fcmd⟩
  have he' : s'.engine.Widths := h ▸ he
  ⟨he'.mem, he'.bhr, he'.ctr, he'.paddr, he'.fcmd⟩

theorem step_of_no_input {s : State} (h : s.input = []) : step s = .next s := by
  simp [step, acceptNext, h]

/-- Settles O9: without an input nothing happens, a reset forgets the state, and a command is `State.accept`. -/
theorem stepDependsOnEngineAndInput : Obligations.StepDependsOnEngineAndInput := by
  intro s s' t hwf hengine hinput hstep
  have hw := State.Widths.of_wf hwf
  match hin : s.input with
  | [] =>
    cases (step_of_no_input hin).symm.trans hstep
    exact ⟨s', [], step_of_no_input (hinput ▸ hin), hengine.symm, hinput.symm, by simp⟩
  | .reset c :: rest =>
    cases (step_reset hin).symm.trans hstep
    exact ⟨_, [], step_reset (hinput ▸ hin), rfl, rfl, by simp⟩
  | .command w :: rest =>
    have hengine' : (s.setInput rest).engine = (s'.setInput rest).engine := hengine
    rw [step_command hin] at hstep
    obtain ⟨hl, rfl⟩ := accept_of_execute (hw.setInput rest) hstep
    have hl' : w.length = (s'.setInput rest).cfg.n + 3 := by
      rw [hl, ← State.engine_cfg, hengine', State.engine_cfg]
    refine ⟨_, [(s.setInput rest).responseTo w], (step_command (hinput ▸ hin)).trans
      (execute_eq_accept ((hw.of_engine_eq hengine).setInput rest) hl'), (State.accept_engine_congr hengine' w).symm,
      by simp, fun _ => ⟨by simp, by simp [State.responseTo_congr hengine' w]⟩⟩

end Sys2Proof.Machine
end

section
/-!
PROOFS. The invariant (O14, O15): every reset has it, and each of the four things a command word can leave keeps it.
-/

namespace Sys2Proof

/-- A presented configuration is held with K and HASH_MODE exactly where the variant takes them (10_state.md R18). -/
theorem Cfg.wf_ofInput (c : CfgInput) : (Cfg.ofInput c).wf = true := by
  simp only [Cfg.wf, Cfg.ofInput]
  cases (Variant.ofCode c.variant).takesK <;> cases (Variant.ofCode c.variant).hashed <;> rfl

end Sys2Proof

namespace Sys2Proof.Machine

/-! What PREDICT and UPDATE leave as history, read by register. -/

/-- PREDICT leaves every history value as it was: a register it makes present holds the zeros it stood for
(42_operations.md R110). -/
@[simp] theorem State.histContent_afterPredict (s : State) (a : Bits) (h : HistReg) :
    (s.afterPredict a).histContent h = s.histContent h := by
  cases h with
  | bhr => rfl
  | bank k =>
    simp only [histContent, afterPredict_bank, afterPredict_cfg, get_bankAfterRead]
    split <;> rfl

/-- So the index of any address is the same after PREDICT. -/
@[simp] theorem State.indexOf_afterPredict (s : State) (a b : Bits) : (s.afterPredict a).indexOf b = s.indexOf b := by
  rw [indexOf, histContent_afterPredict]
  rfl

/-! The parts of the invariant. -/

theorem State.pendingWf_iff (s : State) :
    s.pendingWf = true ↔ (s.pend = true →
      (∀ k, histSel s.cfg s.paddr = .bank k → Table.get k s.bank ≠ none)
      ∧ Table.get (s.indexOf s.paddr) s.pht = some s.ctr) := by
  unfold State.pendingWf
  cases s.pend <;> cases histSel s.cfg s.paddr <;> simp [Option.isSome_iff_ne_none]

/-- While FAULT = 0, the fault record is consistent where the configuration is legal and FCODE and FCMD are zero. -/
theorem State.faultRecordWf_iff_of_no_fault {s : State} (hf : s.fault = false) :
    s.faultRecordWf = true ↔
      s.cfg.illegal = false ∧ s.fcode = 0b000#3 ∧ s.fcmd = Bits.zeros s.cfg.wordWidth := by
  simp [State.faultRecordWf, hf, and_assoc]

theorem State.wf_resetWith {c : Cfg} (h : c.wf = true) : (State.resetWith c).wf = true := by
  have hw : (State.resetWith c).Widths := by
    refine ⟨Memory.wf_resetWith c, ?_, ?_, ?_, ?_⟩ <;> simp [State.resetWith]
  have hrecord : (State.resetWith c).faultRecordWf = true := by
    cases hl : c.illegal <;> simp [State.faultRecordWf, State.resetWith, hl]
  exact (State.wf_iff _).2 ⟨h, hw, hrecord, (State.pendingWf_iff _).2 nofun⟩

section
variable {s : State} (hwf : s.wf = true) (hf : s.fault = false)
include hwf hf

/-- Recording a fault a command can raise: the configuration is legal, because FAULT was 0. -/
theorem State.wf_setFault {f : EngineFault} (hcode : f = .illegalCommand ∨ f = .protocolViolation) {w : Bits}
    (hl : w.length = s.cfg.n + 3) : (s.setFault f.code w).wf = true := by
  obtain ⟨hcfg, hw, hrecord, hpending⟩ := (State.wf_iff s).1 hwf
  obtain ⟨hlegal, -, -⟩ := (State.faultRecordWf_iff_of_no_fault hf).1 hrecord
  have hrecord' : (s.setFault f.code w).faultRecordWf = true := by
    rcases hcode with rfl | rfl <;> simp [State.faultRecordWf, hlegal, EngineFault.code]
  exact (State.wf_iff _).2 ⟨hcfg, ⟨hw.mem, hw.bhr, hw.ctr, hw.paddr, hl⟩, hrecord', hpending⟩

/-- A completed command leaves the fault record alone, so its state is well-formed where the widths and the pending
occurrence are. -/
theorem State.wf_of_same_record {t : State} (hcfg : t.cfg = s.cfg) (hfault : t.fault = s.fault)
    (hfcode : t.fcode = s.fcode) (hfcmd : t.fcmd = s.fcmd) (hw : t.Widths) (hpending : t.pendingWf = true) :
    t.wf = true := by
  obtain ⟨hcfgwf, -, hrecord, -⟩ := (State.wf_iff s).1 hwf
  refine (State.wf_iff t).2 ⟨hcfg ▸ hcfgwf, hw, ?_, hpending⟩
  rw [State.faultRecordWf_iff_of_no_fault hf] at hrecord
  rw [State.faultRecordWf_iff_of_no_fault (hfault.trans hf), hcfg, hfcode, hfcmd]
  exact hrecord

/-- PREDICT loads CTR from the entry at the index, which it has made present beside the register that fed the index. -/
theorem State.wf_afterPredict {a : Bits} (ha : a.length = s.cfg.n) : (s.afterPredict a).wf = true := by
  have hw := State.Widths.of_wf hwf
  have hpht : Memory.wf (phtEnsure (s.indexOf a) (s.setBank (s.bankAfterRead a))) = true :=
    Memory.wf_phtEnsure (length_indexOf hw.mem hw.bhr ha) (wf_bankAfterRead hw.mem ha)
  refine State.wf_of_same_record hwf hf rfl rfl rfl rfl
    ⟨hpht, hw.bhr, length_counterAt hw.mem, ha, hw.fcmd⟩ ((State.pendingWf_iff _).2 fun _ => ⟨fun k hk => ?_, ?_⟩)
  · have hsel : histSel s.cfg a = .bank k := hk
    rw [afterPredict_bank, get_bankAfterRead, if_pos hsel]
    exact Option.some_ne_none _
  · rw [afterPredict_paddr, indexOf_afterPredict, get_pht_afterPredict, if_pos rfl, afterPredict_ctr]

/-- UPDATE ends the pending occurrence and writes values of the widths it read. -/
theorem State.wf_afterUpdate (r : BranchResult) : (s.afterUpdate s.paddr r).wf = true := by
  have hw := State.Widths.of_wf hwf
  have hbank := wf_bankAfterShift (b := r.bit) hw.mem hw.paddr
  have hput : phtPut (s.indexOf s.paddr) (sat s.ctr r.bit) (s.setBank (s.bankAfterShift s.paddr r.bit)) = .ok _ :=
    phtPut_eq_ok.2 ⟨⟨length_indexOf hw.mem hw.bhr hw.paddr, by simpa using hw.ctr⟩, rfl⟩
  have hmem := Memory.wf_phtPut hbank hput
  have hbhr : (s.bhrAfterShift s.paddr r.bit).length = s.cfg.bhrWidth := by
    rw [bhrAfterShift_eq, apply_ite List.length, length_srInsert, ite_self, hw.bhr]
  exact State.wf_of_same_record hwf hf rfl rfl rfl rfl
    ⟨hmem, hbhr, by simpa using hw.ctr, hw.paddr, hw.fcmd⟩ ((State.pendingWf_iff _).2 nofun)

end

/-- Every command word keeps the invariant. -/
theorem State.wf_accept {s : State} {w : Bits} (hwf : s.wf = true) (hl : w.length = s.cfg.n + 3) :
    (s.accept w).wf = true :=
  State.afterWord_induction (P := fun t => t.wf = true) hwf
    (fun _ hcode hf => State.wf_setFault hwf hf hcode hl) (fun _ ha hf _ => State.wf_afterPredict hwf hf ha)
    fun r hf _ => State.wf_afterUpdate hwf hf r

/-- Settles O15, by the next input: no input changes nothing, a reset has the invariant, a command word keeps it. -/
theorem stepKeepsWellFormed : Obligations.StepKeepsWellFormed := by
  intro s t hwf hstep
  match hin : s.input with
  | [] =>
    cases (step_of_no_input hin).symm.trans hstep
    exact hwf
  | .reset c :: rest =>
    cases (step_reset hin).symm.trans hstep
    exact State.wf_resetWith (Cfg.wf_ofInput c)
  | .command w :: rest =>
    rw [step_command hin] at hstep
    obtain ⟨hl, rfl⟩ := accept_of_execute ((State.Widths.of_wf hwf).setInput rest) hstep
    exact State.wf_accept (s := s.setInput rest) hwf hl

/-- Settles O14. -/
theorem everyResetIsWellFormed : Obligations.EveryResetIsWellFormed :=
  ⟨State.wf_resetWith (Cfg.wf_ofInput _), fun c => State.wf_resetWith (Cfg.wf_ofInput c)⟩

end Sys2Proof.Machine
end

section
/-!
PROOFS. Reset (O10) and the fault record (O16, O44): what a reset input leaves, and what a command leaves of CFG, FAULT,
FCODE and FCMD.
-/

namespace Sys2Proof.Machine

/-! Reset (70_reset_and_hazards.md R144, R145). -/

/-- A reset zeroes BHR where the variant has one. -/
theorem resetWith_bhr_ofInput (c : CfgInput) :
    (State.resetWith (Cfg.ofInput c)).bhr =
      match Variant.ofCode c.variant with
      | .GAg | .GAp => Bits.zeros c.h
      | _ => [] := by
  cases hv : Variant.ofCode c.variant <;>
    simp [State.resetWith, Cfg.bhrWidth, Cfg.ofInput, hv, Variant.banked, Bits.zeros]

theorem resetWith_of_illegal {c : Cfg} (h : c.illegal = true) :
    (State.resetWith c).fault = true ∧ (State.resetWith c).fcode = 0b001#3 := by
  simp [State.resetWith, h]

theorem resetWith_of_legal {c : Cfg} (h : c.illegal = false) :
    (State.resetWith c).fault = false ∧ (State.resetWith c).fcode = 0b000#3 := by
  simp [State.resetWith, h]

/-- Settles O10. -/
theorem resetSequence : Obligations.ResetSequence := fun _ c _ hin =>
  ⟨_, step_reset hin, rfl, rfl, rfl, resetWith_bhr_ofInput c, fun _ => rfl, fun _ => rfl, rfl, rfl, rfl, rfl,
    resetWith_of_illegal, resetWith_of_legal⟩

/-! CFG. No well-formedness is assumed here, so a body may also raise where it finds a wrong width. -/

theorem predictBody_cfg {a : Bits} {s t : State} {pred : Bool} (h : predictBody a s = .ok (t, pred)) :
    t.cfg = s.cfg := by
  simp only [predictBody, index_eq] at h
  split at h
  · cases h
  · split at h
    · cases h
    · split at h
      · cases h
      · next hload =>
        obtain ⟨-, rfl⟩ := ctrLoad_eq_ok.1 hload
        cases h
        rfl

theorem insertHist_cfg (b : Bool) (h : HistReg) (s : State) : (insertHist b h s).cfg = s.cfg := by
  cases h with
  | bhr => rfl
  | bank k => rw [insertHist, bankInsert_eq, State.setBank_cfg]

theorem updateBody_cfg {a : Bits} {r : BranchResult} {s t : State} {pred : Bool}
    (h : updateBody a r s = .ok (t, pred)) : t.cfg = s.cfg := by
  simp only [updateBody, index_eq] at h
  split at h
  · cases h
  · split at h
    · cases h
    · next hput =>
      obtain ⟨-, rfl⟩ := phtPut_eq_ok.1 hput
      cases h
      rw [State.setPend_cfg, insertHist_cfg]
      rfl

theorem runCommand_cfg {word : Bits} {body : State → Except EngineFault (State × Bool)} {s : State}
    (h : ∀ t pred, body s = .ok (t, pred) → t.cfg = s.cfg) : (runCommand word body s).cfg = s.cfg := by
  rcases runCommand_cases word body s with ⟨-, e⟩ | ⟨-, t, pred, hb, e⟩ | ⟨-, f, -, e⟩ <;> rw [e]
  · rfl
  · exact h t pred hb
  · rfl

theorem execute_cfg {w : Bits} {s t : State} (h : execute w s = .next t) : t.cfg = s.cfg := by
  unfold execute at h
  split at h
  · next i hd =>
    have hi := wf_of_decode hd
    cases i with
    | predict a =>
      rw [exec, execPredict, if_pos (beq_iff_eq.1 hi)] at h
      cases h
      exact runCommand_cfg fun _ _ => predictBody_cfg
    | update a r =>
      rw [exec, execUpdate, if_pos (beq_iff_eq.1 hi)] at h
      cases h
      exact runCommand_cfg fun _ _ => updateBody_cfg
    | monitor =>
      cases h
      rfl
  · cases h
    exact runCommand_cfg nofun
  · cases h

/-- In the fault state a command that completes leaves the fault record as it is (60_exceptions.md R132). -/
theorem record_of_execute_of_fault {w : Bits} {s t : State} (hf : s.fault = true) (h : execute w s = .next t) :
    t.fault = true ∧ t.fcode = s.fcode ∧ t.fcmd = s.fcmd := by
  cases (execute_of_fault (length_of_execute h) hf).symm.trans h
  exact ⟨hf, rfl, rfl⟩

/-- Settles O16: CFG is read off each command's body, and FAULT = 1 is the sticky fault state. -/
theorem onlyResetChangesConfigOrClearsFault : Obligations.OnlyResetChangesConfigOrClearsFault := by
  intro s t hstep hreset
  match hin : s.input with
  | [] =>
    cases (step_of_no_input hin).symm.trans hstep
    exact ⟨rfl, id⟩
  | .reset c :: rest => exact absurd hin (hreset c rest)
  | .command w :: rest =>
    rw [step_command hin] at hstep
    exact ⟨execute_cfg (s := s.setInput rest) hstep,
      fun hf => (record_of_execute_of_fault (s := s.setInput rest) hf hstep).1⟩

/-! FCODE and FCMD. -/

/-- While no fault is recorded, FCODE and FCMD are zero (10_state.md R30, R33). -/
theorem State.record_of_no_fault {s : State} (hwf : s.wf = true) (hf : s.fault = false) :
    s.fcode = 0b000#3 ∧ s.fcmd = Bits.zeros (s.cfg.n + 3) := by
  obtain ⟨-, -, hrecord, -⟩ := (State.wf_iff s).1 hwf
  exact ((State.faultRecordWf_iff_of_no_fault hf).1 hrecord).2

/-- Settles O44. While FAULT stays 0 both are zero by the invariant; where FAULT was 1 the record stays as it is;
where FAULT rises the state is the one `raiseFault` makes. -/
theorem faultRecordIsWrittenOnce : Obligations.FaultRecordIsWrittenOnce := by
  intro s t w rest hwf hin hstep
  have hcfg : t.cfg = s.cfg := (onlyResetChangesConfigOrClearsFault s t hstep (by simp [hin])).1
  have ht := State.record_of_no_fault (stepKeepsWellFormed s t hwf hstep)
  rw [step_command hin] at hstep
  refine ⟨fun hf => hcfg ▸ ht hf, fun hchanged => ?changed, fun ⟨hf, htf⟩ => ?raised⟩
  case changed =>
    cases hf : s.fault with
    | true =>
      have hsame := (record_of_execute_of_fault (s := s.setInput rest) hf hstep).2
      simp [hsame] at hchanged
    | false =>
      refine ⟨rfl, Bool.eq_true_of_not_eq_false fun htf => ?_⟩
      obtain ⟨hcode, hcmd⟩ := State.record_of_no_fault hwf hf
      obtain ⟨htcode, htcmd⟩ := ht htf
      simp [htcode, htcmd, hcode, hcmd, hcfg] at hchanged
  case raised =>
    obtain ⟨f, rfl⟩ := execute_eq_raiseFault ((State.Widths.of_wf hwf).setInput rest) hf hstep htf
    rfl

end Sys2Proof.Machine
end

section
/-!
PROOFS. What holds in every state a run reaches from a reset (O36, O45): the induction along a run once, then what the
invariant says of the state reached.
-/

namespace Sys2Proof.Machine

/-- What every step keeps, every run keeps. -/
theorem run_induction {M : Host.Core} {P : M.State → Prop} (hstep : ∀ s t, P s → M.step s = .next t → P t) {k : Nat}
    {s t : M.State} (hs : P s) (h : M.run k s = .next t) : P t := by
  induction k generalizing s with
  | zero => cases h; exact hs
  | succ k ih =>
    rw [Host.Core.run] at h
    split at h
    · next u hu => exact ih (hstep s u hs hu) h
    · cases h
    · cases h

theorem wf_of_run {c : CfgInput} {l : List Input} {k : Nat} {t : State}
    (h : core.run k ((State.resetWith (Cfg.ofInput c)).setInput l) = .next t) : t.wf = true :=
  run_induction (M := core) (P := fun s : State => s.wf = true) stepKeepsWellFormed
    (s := (State.resetWith (Cfg.ofInput c)).setInput l) (State.wf_resetWith (Cfg.wf_ofInput c)) h

/-- Settles O36. -/
theorem workingCounterIsTheEntry : Obligations.WorkingCounterIsTheEntry := by
  intro c l k t hrun hp
  obtain ⟨-, hw, -, hpending⟩ := (State.wf_iff t).1 (wf_of_run hrun)
  obtain ⟨-, hentry⟩ := (State.pendingWf_iff t).1 hpending hp
  exact ⟨hentry, phtGet_eq_ok.2 ⟨length_indexOf hw.mem hw.bhr hw.paddr, hentry⟩⟩

/-- A consistent fault record holds no fault, CONFIG_ERROR, ILLEGAL_COMMAND or PROTOCOL_VIOLATION. -/
theorem State.fcode_of_faultRecordWf {s : State} (h : s.faultRecordWf = true) :
    s.fcode = 0b000#3 ∨ s.fcode = 0b001#3 ∨ s.fcode = 0b010#3 ∨ s.fcode = 0b011#3 := by
  unfold State.faultRecordWf at h
  cases hf : s.fault <;> cases hc : s.cfg.illegal <;> simp [hf, hc] at h
  case false.false => exact .inl h.1
  case true.false => exact .inr (.inr h)
  case true.true => exact .inr (.inl h.1.1.1.1)

/-- Settles O45. -/
theorem primitiveFaultsAreUnreachable : Obligations.PrimitiveFaultsAreUnreachable := by
  intro c l k t hrun
  obtain ⟨-, -, hrecord, -⟩ := (State.wf_iff t).1 (wf_of_run hrun)
  exact State.fcode_of_faultRecordWf hrecord

end Sys2Proof.Machine
end

section
/-!
PROOFS. The laws of the primitives (O18, O19, O22): the shift register as a queue, how many counts a prediction takes to
change, and the hash at its two extremes and over XOR.
-/

namespace Sys2Proof.Machine

/-! The shift register (40_primitives.md R72). -/

/-- Settles O18, by induction on the bits inserted: each insert drops the oldest bit and puts its own behind. -/
theorem shiftRegisterIsFifo : Obligations.ShiftRegisterIsFifo := by
  intro v bs
  induction bs generalizing v with
  | nil => simp
  | cons b bs ih =>
    intro h
    cases v with
    | nil => simp at h
    | cons oldest v =>
      have hle : bs.length ≤ v.length := by simpa using h
      rw [List.foldl_cons, srInsert, ih _ (by simpa using Nat.le_succ_of_le hle)]
      simp [List.drop_append_of_le_length hle]

/-! The counter (40_primitives.md R81). -/

theorem length_iterate_sat (b : Bool) (m : Nat) (c : Bits) : ((fun c => sat c b)^[m] c).length = c.length := by
  induction m with
  | zero => rfl
  | succ m ih => rw [Function.iterate_succ_apply', length_sat, ih]

/-- Counting up `m` times adds `m`, up to the top. -/
theorem val_iterate_sat_true (m : Nat) (c : Bits) :
    ((fun c => sat c true)^[m] c).val = min (c.val + m) (2 ^ c.length - 1) := by
  have hlt := Bits.val_lt c
  induction m with
  | zero => simp only [Function.iterate_zero, id_eq]; omega
  | succ m ih =>
    rw [Function.iterate_succ_apply', val_sat, if_pos rfl, length_iterate_sat, ih]
    omega

/-- Counting down `m` times takes `m` away, down to zero. -/
theorem val_iterate_sat_false (m : Nat) (c : Bits) : ((fun c => sat c false)^[m] c).val = c.val - m := by
  induction m with
  | zero => rfl
  | succ m ih =>
    rw [Function.iterate_succ_apply', val_sat, if_neg Bool.false_ne_true, ih]
    omega

/-- The prediction after counting, read off the value: at least half the range is TAKEN (R80). -/
theorem predictionBit_iterate_sat {b : Bool} {c : Bits} (m : Nat) (h : 1 ≤ c.length) :
    predictionBit ((fun c => sat c b)^[m] c) = true ↔ 2 ^ (c.length - 1) ≤ ((fun c => sat c b)^[m] c).val := by
  have hlen := length_iterate_sat b m c
  have hne : (fun c => sat c b)^[m] c ≠ [] := fun he => by rw [he] at hlen; simp at hlen; omega
  rw [predictionBitIsUpperHalf _ hne, hlen]

/-- From zero the prediction is TAKEN after half the range of counts up. -/
theorem predictionBit_count_up {S : Nat} (m : Nat) (hS : 1 ≤ S) :
    predictionBit ((fun c => sat c true)^[m] (Bits.ofNat S 0)) = true ↔ 2 ^ (S - 1) ≤ m := by
  have hhalf := Nat.two_pow_pred_add_two_pow_pred hS
  have hpos := Nat.two_pow_pos (S - 1)
  rw [predictionBit_iterate_sat m (by simpa using hS), val_iterate_sat_true, Bits.length_ofNat,
    Bits.val_ofNat (Nat.two_pow_pos S)]
  omega

/-- From the top the prediction is NOT_TAKEN after half the range of counts down. -/
theorem predictionBit_count_down {S : Nat} (m : Nat) (hS : 1 ≤ S) :
    predictionBit ((fun c => sat c false)^[m] (Bits.ofNat S (2 ^ S - 1))) = false ↔ 2 ^ (S - 1) ≤ m := by
  have hhalf := Nat.two_pow_pred_add_two_pow_pred hS
  have hpos := Nat.two_pow_pos (S - 1)
  rw [← Bool.not_eq_true, predictionBit_iterate_sat m (by simpa using hS), val_iterate_sat_false, Bits.length_ofNat,
    Bits.val_ofNat (by omega)]
  omega

/-- A one-bit counter becomes the bit counted. -/
theorem sat_of_length_one {c : Bits} (b : Bool) (h : c.length = 1) : sat c b = [b] := by
  obtain ⟨x, rfl⟩ := List.length_eq_one_iff.1 h
  cases x <;> cases b <;> rfl

/-- Settles O19. -/
theorem counterLaws : Obligations.CounterLaws :=
  ⟨fun c b => ⟨length_sat c b, Nat.le_sub_one_of_lt (length_sat c b ▸ Bits.val_lt (sat c b))⟩,
    fun c => sat_eq_self_iff c true, fun c => sat_eq_self_iff c false,
    fun _ m hS => ⟨predictionBit_count_up m hS, predictionBit_count_down m hS⟩, fun _ b h => sat_of_length_one b h⟩

/-! The hash (40_primitives.md R83). -/

/-- With one output position for each address position, position `j` takes the one address bit that stands there. -/
theorem foldInto_of_lt {a : Bits} {j : Nat} (h : j < a.length) : foldInto a.length j 0 a false = a[j] := by
  have hsingle : (List.range a.length).filter (fun i => (0 + i) % a.length == j) = [j] := by
    have hmod : ∀ i ∈ List.range a.length, ((0 + i) % a.length == j) = (i == j) := fun i hi => by
      rw [Nat.zero_add, Nat.mod_eq_of_lt (List.mem_range.1 hi)]
    rw [List.filter_congr hmod, List.filter_beq,
      List.count_eq_one_of_mem List.nodup_range (List.mem_range.2 h), List.replicate_one]
  rw [foldInto, hsingle]
  simp [h]

theorem hashFold_length_self (a : Bits) : hashFold a.length a = a := by
  refine List.ext_getElem (length_hashFold _ a) fun j hj hja => ?_
  have hget := getElem?_hashFold a hja
  rw [foldInto_of_lt hja, List.getElem?_eq_getElem hj] at hget
  exact Option.some_inj.1 hget

/-- With one output position every address bit goes into it. -/
theorem hashFrom_one (p : Nat) (x : Bool) (a : Bits) : hashFrom 1 p [x] a = [a.foldl xor x] := by
  induction a generalizing p x with
  | nil => rfl
  | cons b a ih => simp [hashFrom, Nat.mod_one, ih]

theorem hashFrom_zeros (K p n : Nat) (h : Bits) : hashFrom K p h (Bits.zeros n) = h := by
  induction n generalizing p with
  | zero => rfl
  | succ n ih =>
    have hid : (fun x => xor x false) = id := funext Bool.xor_false
    rw [Bits.zeros, List.replicate_succ, hashFrom, hid, List.modify_id]
    exact ih (p + 1)

/-- One address position of the XOR of two addresses. -/
theorem zipWith_xor_modify (h h' : Bits) (i : Nat) (b c : Bool) :
    (List.zipWith xor h h').modify i (fun x => xor x (xor b c))
      = List.zipWith xor (h.modify i (fun x => xor x b)) (h'.modify i (fun x => xor x c)) := by
  apply List.ext_getElem?
  intro j
  simp only [List.getElem?_modify, List.getElem?_zipWith]
  cases h[j]? <;> cases h'[j]? <;> by_cases hij : i = j <;> simp [hij, Bool.xor_left_comm]

theorem hashFrom_zipWith_xor (K p : Nat) (h h' : Bits) {a b : Bits} (hl : a.length = b.length) :
    hashFrom K p (List.zipWith xor h h') (List.zipWith xor a b)
      = List.zipWith xor (hashFrom K p h a) (hashFrom K p h' b) := by
  induction a generalizing b p h h' with
  | nil => cases b with
    | nil => rfl
    | cons y b => simp at hl
  | cons x a ih => cases b with
    | nil => simp at hl
    | cons y b =>
      rw [List.zipWith_cons_cons, hashFrom, hashFrom, hashFrom, zipWith_xor_modify, ih _ _ _ (by simpa using hl)]

/-- Settles O22. -/
theorem hashLaws : Obligations.HashLaws := by
  refine ⟨hashFold_length_self, hashFrom_one 0 false, fun K n => hashFrom_zeros K 0 n _, fun K a b hl => ?linear⟩
  have hzeros : List.zipWith xor (Bits.zeros K) (Bits.zeros K) = Bits.zeros K := by simp [Bits.zeros]
  rw [hashFold, hashFold, hashFold, ← hashFrom_zipWith_xor K 0 _ _ hl, hzeros]

end Sys2Proof.Machine
end

section
/-!
PROOFS. Sharing (O27): two addresses share a history register where the variant's key for them is the same, and a PHT
entry where the key formed from address, set and history is.
-/

namespace Sys2Proof.Machine

theorem histSel_of_unhashed {c : Cfg} {a : Bits} (hb : c.variant.banked = true) (hh : c.variant.hashed = false)
    (ha : a.length = c.n) : histSel c a = .bank a := by
  rw [histSel_of_banked a hb, histKey_of_unhashed hb hh ha]

theorem histSel_of_hashed {c : Cfg} (a : Bits) (hh : c.variant.hashed = true) :
    histSel c a = .bank (hashFold c.setWidth a) := by
  rw [histSel_of_banked a (Variant.banked_of_hashed hh), histKey_of_hashed a hh]

/-- Two keys with first parts of one width are equal where their parts are. -/
theorem append_eq_append_iff_of_length_eq {u u' v v' : Bits} (h : u.length = u'.length) :
    u ++ v = u' ++ v' ↔ u = u' ∧ v = v' :=
  ⟨fun e => List.append_inj e h, fun ⟨hu, hv⟩ => hu ▸ hv ▸ rfl⟩

/-- Settles O27, by the variant: the register by its family, the key by its parts. -/
theorem sharingByVariant : Obligations.SharingByVariant := by
  intro s t a a' _ _ hcfg ha ha' hne
  have hlen : a.length = a'.length := ha.trans ha'.symm
  have hset : (hashFold s.cfg.setWidth a).length = (hashFold s.cfg.setWidth a').length := by simp
  unfold State.indexOf indexKey
  rw [← hcfg]
  cases hv : s.cfg.variant with
  | GAg | GAp =>
    have hsel : ∀ x, histSel s.cfg x = .bhr := fun x => histSel_of_unbanked x (by rw [hv]; rfl)
    simp [hsel, State.histContent, append_eq_append_iff_of_length_eq hlen, hne]
  | PAg | PAp | PAs =>
    have hsel : ∀ x : Bits, x.length = s.cfg.n → histSel s.cfg x = .bank x :=
      fun _ => histSel_of_unhashed (by rw [hv]; rfl) (by rw [hv]; rfl)
    simp [hsel a ha, hsel a' ha', append_eq_append_iff_of_length_eq hlen, hne]
  | SAg | SAp | SAs =>
    have hsel : ∀ x, histSel s.cfg x = .bank (hashFold s.cfg.setWidth x) :=
      fun x => histSel_of_hashed x (by rw [hv]; rfl)
    simp [hsel, append_eq_append_iff_of_length_eq hlen, append_eq_append_iff_of_length_eq hset, hne]

end Sys2Proof.Machine
end

section
/-!
PROOFS. What PREDICT and UPDATE leave alone and what they read (O30 to O33, O35, O37), from `afterPredict` and
`afterUpdate` read register by register.
-/

namespace Sys2Proof.Machine

/-! PREDICT's frame (42_operations.md R110, R111). -/

@[simp] theorem State.counterAt_afterPredict (s : State) (a k : Bits) :
    (s.afterPredict a).counterAt k = s.counterAt k := by
  rw [counterAt, get_pht_afterPredict]
  split
  · next h => rw [h]; rfl
  · rfl

/-- A present entry keeps its value: the counter PREDICT writes is the one it finds. -/
theorem get_pht_afterPredict_of_present {s : State} {a k v : Bits} (h : Table.get k s.pht = some v) :
    Table.get k (s.afterPredict a).pht = some v := by
  rw [get_pht_afterPredict]
  split
  · next hk => rw [← hk, State.counterAt, h, Option.getD_some]
  · exact h

theorem get_bankAfterRead_of_ne {s : State} {a k : Bits} (h : k ≠ histKey s.cfg a) :
    Table.get k (s.bankAfterRead a) = Table.get k s.bank := by
  have hsel : histSel s.cfg a ≠ .bank k := by
    rcases histSel_cases s.cfg a with ⟨-, e⟩ | ⟨-, e⟩ <;> simp [e, Ne.symm h]
  rw [get_bankAfterRead, if_neg hsel]

theorem get_bankAfterRead_of_present {s : State} {a k v : Bits} (h : Table.get k s.bank = some v) :
    Table.get k (s.bankAfterRead a) = some v := by
  rw [get_bankAfterRead, State.histContent, h, Option.getD_some, ite_self]

theorem bankAfterRead_of_unbanked {s : State} (a : Bits) (h : s.cfg.variant.banked = false) :
    s.bankAfterRead a = s.bank := by
  rw [State.bankAfterRead, histSel_of_unbanked a h]

theorem bankAfterRead_of_banked {s : State} (a : Bits) (h : s.cfg.variant.banked = true) :
    s.bankAfterRead a = Table.ensure (histKey s.cfg a) (Bits.zeros s.cfg.h) s.bank := by
  rw [State.bankAfterRead, histSel_of_banked a h]

/-- Settles O30. -/
theorem predictFrame : Obligations.PredictFrame := fun s a hwf ha hf hp =>
  ⟨_, exec_predict_of_idle (State.Widths.of_wf hwf) ha hf hp, State.counterAt_afterPredict s a,
    State.histContent_afterPredict s a, fun k hk => (get_pht_afterPredict s a k).trans (if_neg hk),
    fun _ _ => get_pht_afterPredict_of_present, fun _ => get_bankAfterRead_of_ne, bankAfterRead_of_unbanked a,
    fun _ _ => get_bankAfterRead_of_present, rfl, rfl, rfl, rfl, rfl, rfl, _, rfl⟩

/-! PREDICT after reset, and on absent and present zeros. -/

theorem predictionBit_zeros (S : Nat) : predictionBit (Bits.zeros S) = false := by
  cases S <;> rfl

/-- Settles O31: after a reset every entry is absent and stands for zero, which predicts NOT_TAKEN. -/
theorem firstPredictIsNotTaken : Obligations.FirstPredictIsNotTaken := by
  intro c a hlegal ha
  obtain ⟨hf, hcode⟩ := resetWith_of_legal hlegal
  have hw := State.Widths.of_wf (State.wf_resetWith (Cfg.wf_ofInput c))
  refine ⟨_, exec_predict_of_idle hw ha hf rfl, ?_, rfl, rfl⟩
  have hzero : ∀ k, (State.resetWith (Cfg.ofInput c)).counterAt k = Bits.zeros c.s := fun _ => rfl
  rw [hzero, predictionBit_zeros, respond_output, State.afterPredict_pend, State.afterPredict_fault,
    State.afterPredict_fcode, hf, hcode]
  rfl

theorem Table.ensure_ensure (k v : Bits) (t : Table) : Table.ensure k v (Table.ensure k v t) = Table.ensure k v t :=
  Table.ensure_of_get (Table.get_ensure_self k v t)

/-- An entry already present at the index makes no difference to what PREDICT leaves. -/
theorem State.afterPredict_phtEnsure (s : State) (a : Bits) :
    (phtEnsure (s.indexOf a) s).afterPredict a = s.afterPredict a := by
  have hindex : (phtEnsure (s.indexOf a) s).indexOf a = s.indexOf a := rfl
  have hcounter : (phtEnsure (s.indexOf a) s).counterAt (s.indexOf a) = s.counterAt (s.indexOf a) := by
    rw [counterAt, get_pht_phtEnsure, if_pos rfl, Option.getD_some]
  unfold State.afterPredict
  rw [hindex, hcounter]
  simp only [phtEnsure, setPht_pht, setPht_cfg, Table.ensure_ensure]
  rfl

/-- Nor does a register already present at HistKey(a). -/
theorem State.afterPredict_bankRead {s : State} {a : Bits} (hb : s.cfg.variant.banked = true) :
    (bankRead (histKey s.cfg a) s).2.afterPredict a = s.afterPredict a := by
  have hread : (bankRead (histKey s.cfg a) s).2 = s.setBank (s.bankAfterRead a) := by
    rw [bankRead_eq, bankAfterRead_of_banked a hb]
  have hindex : (s.setBank (s.bankAfterRead a)).indexOf a = s.indexOf a := s.indexOf_afterPredict a a
  have hbank : (s.setBank (s.bankAfterRead a)).bankAfterRead a = s.bankAfterRead a := by
    rw [bankAfterRead_of_banked (s := s.setBank (s.bankAfterRead a)) a hb, bankAfterRead_of_banked a hb]
    exact Table.ensure_ensure _ _ _
  rw [hread]
  unfold State.afterPredict
  rw [hindex, hbank]
  rfl

/-- PREDICT's answer is decided by what it leaves. -/
theorem exec_predict_eq_of_afterPredict_eq {s s' : State} {a : Bits} (hw : s.Widths) (hw' : s'.Widths)
    (ha : a.length = s.cfg.n) (hf : s.fault = false) (hp : s.pend = false) (hp' : s'.pend = false)
    (h : s'.afterPredict a = s.afterPredict a) : exec (.predict a) s = exec (.predict a) s' := by
  have hcfg : s'.cfg = s.cfg := by simpa using congrArg State.cfg h
  have hf' : s'.fault = false := by simpa [hf] using congrArg State.fault h
  have hctr : s'.counterAt (s'.indexOf a) = s.counterAt (s.indexOf a) := by simpa using congrArg State.ctr h
  rw [exec_predict_of_idle hw ha hf hp, exec_predict_of_idle hw' (hcfg ▸ ha) hf' hp', h, hctr]

/-- Settles O32. -/
theorem absentPredictsAsZero : Obligations.AbsentPredictsAsZero := by
  intro s a hwf ha hf hp
  have hw := State.Widths.of_wf hwf
  refine ⟨?entry, fun hb => ?register⟩
  case entry =>
    have hmem := Memory.wf_phtEnsure (length_indexOf hw.mem hw.bhr ha) hw.mem
    exact exec_predict_eq_of_afterPredict_eq hw ⟨hmem, hw.bhr, hw.ctr, hw.paddr, hw.fcmd⟩ ha hf hp hp
      (State.afterPredict_phtEnsure s a)
  case register =>
    have hmem := Memory.wf_bankRead hb (length_histKey ha) hw.mem
    have hread := State.afterPredict_bankRead (a := a) hb
    rw [bankRead_eq] at hmem hread ⊢
    exact exec_predict_eq_of_afterPredict_eq hw ⟨hmem, hw.bhr, hw.ctr, hw.paddr, hw.fcmd⟩ ha hf hp hp hread

/-! What PREDICT's response reads (42_operations.md R122). -/

/-- What a state answers to PREDICT a: the refusal, the violation, or the prediction. -/
def State.predictResponse (s : State) (a : Bits) : Response :=
  if s.fault then ⟨responseWord false s.pend true s.fcode true, none⟩
  else if s.pend then ⟨responseWord false true true EngineFault.protocolViolation.code false, none⟩
  else ⟨responseWord (predictionBit (s.counterAt (s.indexOf a))) true false s.fcode false, none⟩

theorem exec_predict_answers {s : State} {a : Bits} (hw : s.Widths) (ha : a.length = s.cfg.n) :
    ∃ t, exec (.predict a) s = .next t ∧ t.output = s.output ++ [s.predictResponse a] := by
  refine ⟨_, execPredict_cases hw ha, ?_⟩
  unfold State.predictResponse
  cases hf : s.fault with
  | true => simp [hf]
  | false => cases hp : s.pend <;> simp [hf, hp]

/-- Settles O33: the index depends on the history value alone, and the counter there decides the prediction. -/
theorem predictReadsOnlyItsEntry : Obligations.PredictReadsOnlyItsEntry := by
  intro s s' a hwf hwf' ha hcfg hpend hfault hfcode hhist hcounter
  have hindex : s'.indexOf a = s.indexOf a := by rw [State.indexOf, State.indexOf, ← hcfg, hhist]
  have hresponse : s'.predictResponse a = s.predictResponse a := by
    simp only [State.predictResponse, hindex, hpend, hfault, hfcode, hcounter]
  obtain ⟨t, hexec, hout⟩ := exec_predict_answers (State.Widths.of_wf hwf) ha
  obtain ⟨t', hexec', hout'⟩ := exec_predict_answers (State.Widths.of_wf hwf') (hcfg ▸ ha)
  exact ⟨t, t', s.predictResponse a, hexec, hexec', hout, hresponse ▸ hout'⟩

/-! UPDATE's frame (42_operations.md R114, R122), and one branch occurrence (R117). -/

/-- UPDATE shifts the outcome into the register that fed the index, and into no other. -/
theorem State.histContent_afterUpdate (s : State) (a : Bits) (r : BranchResult) (h : HistReg) :
    (s.afterUpdate a r).histContent h =
      if h = histSel s.cfg a then srInsert r.bit (s.histContent h) else s.histContent h := by
  cases h with
  | bhr =>
    rw [histContent, afterUpdate_bhr, bhrAfterShift_eq]
    simp only [eq_comm (a := HistReg.bhr), histContent]
  | bank k =>
    rw [histContent, afterUpdate_bank, get_bankAfterShift, afterUpdate_cfg]
    simp only [eq_comm (a := HistReg.bank k)]
    split <;> rfl

theorem get_bankAfterShift_of_ne {s : State} {a k : Bits} (b : Bool) (h : .bank k ≠ histSel s.cfg a) :
    Table.get k (s.bankAfterShift a b) = Table.get k s.bank := by
  rw [get_bankAfterShift, if_neg (Ne.symm h)]

/-- Settles O35. -/
theorem updateFrame : Obligations.UpdateFrame := fun s r hwf hf hp =>
  ⟨_, exec_update_of_match (State.Widths.of_wf hwf) hf hp rfl, fun _ hk => Table.get_put_ne hk _ _,
    fun h hne => (s.histContent_afterUpdate s.paddr r h).trans (if_neg hne),
    fun _ => get_bankAfterShift_of_ne r.bit, (s.histContent_afterUpdate s.paddr r _).trans (if_pos rfl), rfl, rfl, rfl,
    rfl, rfl, rfl, _, rfl⟩

/-- What PREDICT a and then UPDATE a leaves in the history registers is the shift alone. -/
theorem State.histContent_occurrence (s : State) (a : Bits) (r : BranchResult) (h : HistReg) :
    ((s.afterPredict a).afterUpdate a r).histContent h =
      if h = histSel s.cfg a then srInsert r.bit (s.histContent h) else s.histContent h := by
  rw [histContent_afterUpdate, histContent_afterPredict, afterPredict_cfg]

/-- And in the history table the counter at the index, one step on. -/
theorem State.get_pht_occurrence (s : State) (a k : Bits) (r : BranchResult) :
    Table.get k ((s.afterPredict a).afterUpdate a r).pht =
      if k = s.indexOf a then some (sat (s.counterAt (s.indexOf a)) r.bit) else Table.get k s.pht := by
  rw [afterUpdate_pht, Table.get_put, indexOf_afterPredict, afterPredict_ctr]
  split
  · rfl
  · next hk => rw [get_pht_afterPredict, if_neg hk]

theorem State.get_bank_occurrence {s : State} {a k : Bits} (r : BranchResult) (h : .bank k ≠ histSel s.cfg a) :
    Table.get k ((s.afterPredict a).afterUpdate a r).bank = Table.get k s.bank := by
  rw [afterUpdate_bank, get_bankAfterShift_of_ne (s := s.afterPredict a) r.bit h, afterPredict_bank, get_bankAfterRead,
    if_neg (Ne.symm h)]

/-- Settles O37: PREDICT leaves a well-formed state with the occurrence pending, on which UPDATE completes. -/
theorem oneBranchOccurrence : Obligations.OneBranchOccurrence := by
  intro s a r hwf ha hf hp
  have hcode := State.fcode_of_no_fault hwf hf
  have hw := State.Widths.of_wf (State.wf_afterPredict hwf hf ha)
  refine ⟨_, _, exec_predict_of_idle (State.Widths.of_wf hwf) ha hf hp,
    exec_update_of_match ⟨hw.mem, hw.bhr, hw.ctr, hw.paddr, hw.fcmd⟩ hf rfl rfl, fun k => s.get_pht_occurrence a k r,
    rfl, (s.histContent_occurrence a r _).trans (if_pos rfl),
    fun h hne => (s.histContent_occurrence a r h).trans (if_neg hne), fun _ => State.get_bank_occurrence r, rfl, rfl,
    ?_, rfl, hf, rfl, rfl, rfl⟩
  simp [hf, hcode]

end Sys2Proof.Machine
end

section
/-!
PROOFS. Command streams (O39, O46): a stream of presentable words is `State.accept` of each in turn, so what is said
of a stream is an induction on its words.
-/

namespace Sys2Proof.Machine

/-- The state after a stream of command words. -/
def State.acceptAll (s : State) (words : List Bits) : State := words.foldl State.accept s

theorem State.acceptAll_cons (s : State) (w : Bits) (words : List Bits) :
    s.acceptAll (w :: words) = (s.accept w).acceptAll words := rfl

/-- A stream of presentable words runs to its end. -/
theorem runWords_eq_acceptAll {words : List Bits} {s : State} (hwf : s.wf = true) (hp : presentable s.cfg.n words) :
    runWords words s = .next ((s.acceptAll words).setInput []) := by
  induction words generalizing s with
  | nil => rfl
  | cons w words ih =>
    obtain ⟨hl, hrest⟩ := List.forall_mem_cons.1 hp
    have hexec : execute w (present words s) = .next (present words (s.accept w)) := by
      rw [present, present, ← State.accept_setInput]
      exact execute_eq_accept ((State.Widths.of_wf hwf).setInput _) hl
    have hp' : presentable (s.accept w).cfg.n words := by rwa [State.accept_cfg]
    rw [runWords_cons hexec, ih (State.wf_accept hwf hl) hp', State.acceptAll_cons]

/-! MONITOR in a stream (42_operations.md R120). -/

theorem State.afterWord_of_monitor {s : State} {w : Bits} (hm : isMonitorWord s.cfg.n w = true) :
    s.afterWord w = s := by
  have hd : decode s.cfg.n w = .instr .monitor := beq_iff_eq.1 hm
  cases hf : s.fault with
  | true => exact afterWord_of_fault w hf
  | false => exact afterWord_of_instr hf hd

theorem State.responseTo_snapshot_isNone (s : State) (w : Bits) :
    (s.responseTo w).snapshot.isNone = !isMonitorWord s.cfg.n w := by
  cases hm : isMonitorWord s.cfg.n w <;> simp [responseTo, hm]

/-- The responses of a state without the snapshots. -/
def State.plainOutput (s : State) : List Response := s.output.filter (fun r => r.snapshot.isNone)

/-- Two states a host that ignores snapshots cannot tell apart. -/
structure SameButSnapshots (s s' : State) : Prop where
  engine : s.engine = s'.engine
  output : s.plainOutput = s'.plainOutput

theorem State.plainOutput_accept (s : State) (w : Bits) :
    (s.accept w).plainOutput =
      s.plainOutput ++ if isMonitorWord s.cfg.n w then [] else [s.responseTo w] := by
  rw [plainOutput, accept_output, List.filter_append, List.filter_singleton, responseTo_snapshot_isNone]
  cases isMonitorWord s.cfg.n w <;> rfl

/-- A MONITOR on the one side alone is not seen. -/
theorem SameButSnapshots.accept_monitor {s s' : State} {w : Bits} (h : SameButSnapshots s s')
    (hm : isMonitorWord s.cfg.n w = true) : SameButSnapshots (s.accept w) s' where
  engine := by rw [State.accept, State.engine_emit, State.afterWord_of_monitor hm, h.engine]
  output := by rw [State.plainOutput_accept, if_pos hm, List.append_nil, h.output]

/-- Any other word on both sides is answered the same. -/
theorem SameButSnapshots.accept {s s' : State} (h : SameButSnapshots s s') (w : Bits) :
    SameButSnapshots (s.accept w) (s'.accept w) where
  engine := State.accept_engine_congr h.engine w
  output := by
    have hcfg : s.cfg = s'.cfg := ((State.engine_eq_iff s s').1 h.engine).1
    rw [State.plainOutput_accept, State.plainOutput_accept, h.output, hcfg, State.responseTo_congr h.engine w]

/-- So leaving every MONITOR out of a stream is not seen. -/
theorem SameButSnapshots.acceptAll_filter {s s' : State} {n : Nat} (words : List Bits) (hn : s.cfg.n = n)
    (h : SameButSnapshots s s') :
    SameButSnapshots (s.acceptAll words) (s'.acceptAll (words.filter (fun w => !isMonitorWord n w))) := by
  induction words generalizing s s' with
  | nil => exact h
  | cons w words ih =>
    have hn' : (s.accept w).cfg.n = n := by rw [State.accept_cfg, hn]
    rw [List.filter_cons, State.acceptAll_cons]
    cases hm : isMonitorWord n w with
    | true => exact ih hn' (h.accept_monitor (hn ▸ hm))
    | false => exact ih hn' (h.accept w)

/-- Settles O39: the stream and its filter start from one state, and no MONITOR left out is seen. -/
theorem monitorIsInvisible : Obligations.MonitorIsInvisible := by
  intro s words hwf hp
  have hsame := SameButSnapshots.acceptAll_filter words rfl (⟨rfl, rfl⟩ : SameButSnapshots s s)
  exact ⟨_, _, runWords_eq_acceptAll hwf hp, runWords_eq_acceptAll hwf fun w hw => hp w (List.mem_of_mem_filter hw),
    hsame.engine, hsame.output⟩

/-! The call order (70_reset_and_hazards.md R149). -/

theorem length_encode {n : Nat} {i : Instr} (h : i.wf n = true) : (encode n i).length = n + 3 := by
  cases i with
  | predict a => exact Laws.EncodedWidth.predict a n h
  | update a r => exact Laws.EncodedWidth.update a r n h
  | monitor => exact Laws.EncodedWidth.monitor n h

theorem presentable_wordsOf {n : Nat} {is : List Instr} (h : ∀ i ∈ is, i.wf n = true) :
    presentable n (wordsOf n is) := by
  intro w hw
  obtain ⟨i, hi, rfl⟩ := List.mem_map.1 hw
  exact length_encode (h i hi)

theorem State.acceptAll_of_fault {s : State} (words : List Bits) (hf : s.fault = true) :
    (s.acceptAll words).fault = true := by
  induction words generalizing s with
  | nil => exact hf
  | cons w words ih => exact ih (by rwa [accept, afterWord_of_fault w hf, emit_fault])

/-- One instruction against the call order: it either raises a fault and breaks the order, or does neither and leaves
pending what the order goes on from. -/
theorem State.afterInstr_orderly {s : State} (hf : s.fault = false) (i : Instr) :
    ((s.afterInstr i).fault = true ∧ ∀ is, orderly s.pending (i :: is) = false)
    ∨ ((s.afterInstr i).fault = false ∧ ∀ is, orderly s.pending (i :: is) = orderly (s.afterInstr i).pending is) := by
  cases i with
  | predict a =>
    cases hp : s.pend with
    | true => exact .inl ⟨by simp [afterInstr_predict_of_pend a hp], fun _ => by simp [pending, hp, orderly]⟩
    | false => exact .inr ⟨by simp [afterInstr_predict_of_idle a hp, hf],
        fun _ => by simp [afterInstr_predict_of_idle a hp, pending, hp, orderly]⟩
  | update a r =>
    by_cases hm : s.pend = true ∧ s.paddr = a
    · exact .inr ⟨by simp [afterInstr_update_of_match r hm, hf],
        fun _ => by simp [afterInstr_update_of_match r hm, pending, hm.1, hm.2, orderly]⟩
    · refine .inl ⟨by simp [afterInstr_update_of_violation r hm], fun _ => ?_⟩
      cases hp : s.pend <;> simp_all [pending, orderly]
  | monitor => exact .inr ⟨hf, fun _ => by cases hp : s.pend <;> simp [afterInstr, pending, hp, orderly]⟩

/-- From a state without a fault, a stream ends without one exactly where it keeps the call order. -/
theorem State.acceptAll_fault_iff {s : State} {n : Nat} {is : List Instr} (hf : s.fault = false) (hn : s.cfg.n = n)
    (hi : ∀ i ∈ is, i.wf n = true) :
    (s.acceptAll (wordsOf n is)).fault = false ↔ orderly s.pending is = true := by
  subst hn
  induction is generalizing s with
  | nil => simp [wordsOf, acceptAll, orderly, hf]
  | cons i is ih =>
    obtain ⟨hwf, hrest⟩ := List.forall_mem_cons.1 hi
    have hafter : s.afterWord (encode s.cfg.n i) = s.afterInstr i :=
      afterWord_of_instr hf (decodeOfEncode s.cfg.n i hwf)
    rw [wordsOf, List.map_cons, acceptAll_cons]
    rcases afterInstr_orderly hf i with ⟨hraised, hbroken⟩ | ⟨hcompleted, hgoes⟩
    · have hfault : (s.accept (encode s.cfg.n i)).fault = true := by rwa [accept, hafter]
      simp [acceptAll_of_fault _ hfault, hbroken]
    · have hnofault : (s.accept (encode s.cfg.n i)).fault = false := by rwa [accept, hafter]
      have hpending : (s.accept (encode s.cfg.n i)).pending = (s.afterInstr i).pending := by rw [accept, hafter]; rfl
      have hcons := ih hnofault (by rwa [accept_cfg])
      rwa [accept_cfg, hpending, ← hgoes] at hcons

/-- Settles O46: a stream of well-formed instructions runs to its end, and `acceptAll_fault_iff` says how. -/
theorem orderlyStreamsExactlyDoNotFault : Obligations.OrderlyStreamsExactlyDoNotFault := fun _ _ hwf hf hi =>
  ⟨_, runWords_eq_acceptAll hwf (presentable_wordsOf hi), State.acceptAll_fault_iff hf rfl hi⟩

end Sys2Proof.Machine
end

section
/-!
PROOFS. Equivalent configurations (O47, O48): where two configurations have the same widths and index every address the
same, showing a state under the other configuration commutes with every command word.
-/

namespace Sys2Proof

theorem Variant.ofCode_code (v : Variant) : Variant.ofCode v.code = v := by
  cases v <;> rfl

/-- A configuration with sizes, a set width and a hash mode in the range its variant asks for is legal. -/
theorem Cfg.legal_ofInput {v : Variant} {n h s k m : Nat} (hn : 1 ≤ n) (hh : 1 ≤ h) (hs : 1 ≤ s)
    (hk : v.takesK = true → 1 ≤ k ∧ k ≤ n) (hm : v.hashed = true → m = 0) :
    (Cfg.ofInput ⟨v.code, n, h, s, k, m, 0⟩).illegal = false := by
  rw [← Bool.not_eq_true, Cfg.illegal_ofInput_iff, ← Variant.takesK_iff_mem, ← Variant.hashed_iff_mem,
    Variant.ofCode_code]
  rintro (hsize | ⟨hv, hwidth⟩ | ⟨hv, hmode⟩ | hcount)
  · simp only at hsize; omega
  · have := hk hv
    simp only at hwidth; omega
  · exact hmode (hm hv)
  · exact hcount rfl

end Sys2Proof

namespace Sys2Proof.Machine

/-- Two configurations that size the engine the same and name the same history register and the same PHT key for every
address. -/
structure SameIndexing (c c' : Cfg) : Prop where
  n        : c.n = c'.n
  h        : c.h = c'.h
  s        : c.s = c'.s
  banked   : c.variant.banked = c'.variant.banked
  illegal  : c.illegal = c'.illegal
  histSel  : ∀ a : Bits, a.length = c.n → histSel c a = histSel c' a
  indexKey : ∀ a v : Bits, a.length = c.n → indexKey c a v = indexKey c' a v

/-- A state of an engine with configuration `c'` that holds, and has answered, what `s` has, apart from CFG. -/
def State.viewAs (c' : Cfg) (s : State) : State :=
  { s with cfg := c', output := s.output.map (Response.withCfg · c') }

section
variable {c c' : Cfg} (hc : SameIndexing c c')
include hc

theorem viewAs_resetWith : (State.resetWith c).viewAs c' = State.resetWith c' := by
  simp [State.viewAs, State.resetWith, Cfg.bhrWidth, Cfg.wordWidth, hc.n, hc.h, hc.s, hc.banked, hc.illegal]

section
variable {s : State} (hs : s.cfg = c)
include hs

theorem viewAs_afterPredict {a : Bits} (ha : a.length = s.cfg.n) :
    (s.viewAs c').afterPredict a = (s.afterPredict a).viewAs c' := by
  subst hs
  simp [State.afterPredict, State.viewAs, State.bankAfterRead, State.indexOf, State.counterAt, State.histContent,
    hc.histSel a ha, hc.indexKey a _ ha, hc.h, hc.s]

theorem viewAs_afterUpdate {a : Bits} (r : BranchResult) (ha : a.length = s.cfg.n) :
    (s.viewAs c').afterUpdate a r = (s.afterUpdate a r).viewAs c' := by
  subst hs
  simp [State.afterUpdate, State.viewAs, State.bankAfterShift, State.bhrAfterShift, State.indexOf, State.histContent,
    hc.histSel a ha, hc.indexKey a _ ha, hc.h]

theorem viewAs_afterWord (w : Bits) : (s.viewAs c').afterWord w = (s.afterWord w).viewAs c' :=
  State.afterWord_map (State.viewAs c') w (by rw [hs, hc.n]; rfl) rfl rfl rfl (fun _ _ => rfl)
    (fun _ => viewAs_afterPredict hc hs) fun _ r => viewAs_afterUpdate hc hs r

theorem viewAs_responseTo (w : Bits) : (s.viewAs c').responseTo w = (s.responseTo w).withCfg c' := by
  have hn : (s.viewAs c').cfg.n = s.cfg.n := by rw [hs, hc.n]; rfl
  have hpredicts : (s.viewAs c').predicts w = s.predicts w := by
    rw [State.predicts, State.predicts, hn]
    rfl
  have hsnapshot : snapshotOf (s.viewAs c') = { snapshotOf s with cfg := c' } := by
    subst hs
    rw [snapshotOf, snapshotOf, hc.banked]
    rfl
  rw [State.responseTo, viewAs_afterWord hc hs, hpredicts, hn, hsnapshot, State.responseTo, Response.withCfg,
    apply_ite (Option.map _)]
  rfl

theorem viewAs_accept (w : Bits) : (s.viewAs c').accept w = (s.accept w).viewAs c' := by
  rw [State.accept, State.accept, viewAs_afterWord hc hs, viewAs_responseTo hc hs]
  simp [State.viewAs, State.emit]

theorem viewAs_acceptAll (words : List Bits) : (s.viewAs c').acceptAll words = (s.acceptAll words).viewAs c' := by
  induction words generalizing s with
  | nil => rfl
  | cons w words ih =>
    rw [State.acceptAll_cons, State.acceptAll_cons, viewAs_accept hc hs]
    exact ih (by rw [State.accept_cfg, hs])

end

end

/-- So two such configurations behave the same. -/
theorem sameBehaviour_of_sameIndexing {i i' : CfgInput} (hc : SameIndexing (Cfg.ofInput i) (Cfg.ofInput i')) :
    SameBehaviour (Cfg.ofInput i) (Cfg.ofInput i') := by
  refine ⟨hc.n, fun words hp => ?_⟩
  have hp' : presentable (Cfg.ofInput i').n words := hc.n ▸ hp
  have hview := viewAs_acceptAll hc (s := State.resetWith (Cfg.ofInput i)) rfl words
  rw [viewAs_resetWith hc] at hview
  refine ⟨_, _, runWords_eq_acceptAll (State.wf_resetWith (Cfg.wf_ofInput i)) hp,
    runWords_eq_acceptAll (State.wf_resetWith (Cfg.wf_ofInput i')) hp', ?_, ?_⟩ <;> rw [hview] <;> rfl

/-! The pairs of configurations (41_indexing.md R102; 95_test_vectors.md section 2.8). -/

/-- Settles O47: PAs and PAg project the address to the same register and take the history alone as the key. -/
theorem pAsBehavesAsPAg : Obligations.PAsBehavesAsPAg := by
  intro n h s k m m' hn hh hs hk hkn k'
  have hPAs : (Cfg.ofInput ⟨Variant.code .PAs, n, h, s, k, m, 0⟩).illegal = false :=
    Cfg.legal_ofInput hn hh hs (fun _ => ⟨hk, hkn⟩) nofun
  have hPAg : (Cfg.ofInput ⟨Variant.code .PAg, n, h, s, k', m', 0⟩).illegal = false :=
    Cfg.legal_ofInput hn hh hs nofun nofun
  exact sameBehaviour_of_sameIndexing
    ⟨rfl, rfl, rfl, rfl, hPAs.trans hPAg.symm, fun _ _ => rfl, fun _ _ _ => rfl⟩

/-- With K = N the hashed set of an address is the address (40_primitives.md R83 (c)). -/
theorem hashFold_of_full_width {n : Nat} {a : Bits} (ha : a.length = n) : hashFold n a = a :=
  ha ▸ hashFold_length_self a

/-- Then the register it selects is the one the address itself selects. -/
theorem bank_hashFold_of_full_width {n : Nat} {a : Bits} (ha : a.length = n) :
    HistReg.bank (hashFold n a) = HistReg.bank (proj n a) := by
  rw [hashFold_of_full_width ha, proj_self ha]

/-- Settles O48: with the set of an address the address itself, each pair names the same register and the same key. -/
theorem fullWidthSetsBehaveAsAddresses : Obligations.FullWidthSetsBehaveAsAddresses := by
  intro n h s k m hn hh hs
  have hset (v : Variant) : (Cfg.ofInput ⟨v.code, n, h, s, n, 0, 0⟩).illegal = false :=
    Cfg.legal_ofInput hn hh hs (fun _ => ⟨hn, le_rfl⟩) fun _ => rfl
  have hPAg : (Cfg.ofInput ⟨Variant.code .PAg, n, h, s, k, m, 0⟩).illegal = false :=
    Cfg.legal_ofInput hn hh hs nofun nofun
  have hPAp : (Cfg.ofInput ⟨Variant.code .PAp, n, h, s, k, m, 0⟩).illegal = false :=
    Cfg.legal_ofInput hn hh hs nofun nofun
  exact ⟨
    sameBehaviour_of_sameIndexing ⟨rfl, rfl, rfl, rfl, (hset .SAg).trans hPAg.symm,
      fun _ => bank_hashFold_of_full_width, fun _ _ _ => rfl⟩,
    sameBehaviour_of_sameIndexing ⟨rfl, rfl, rfl, rfl, (hset .SAp).trans hPAp.symm,
      fun _ => bank_hashFold_of_full_width, fun _ _ _ => rfl⟩,
    sameBehaviour_of_sameIndexing ⟨rfl, rfl, rfl, rfl, (hset .SAs).trans hPAp.symm,
      fun _ => bank_hashFold_of_full_width, fun _ v ha => congrArg (· ++ v) (hashFold_of_full_width ha)⟩⟩

end Sys2Proof.Machine
end

section
/-!
PROOFS. The words and the texts of commands (O4, O12, O49) and how a step comes to an instruction (O5, O6, O7, O13).
-/

namespace Sys2Proof

theorem Variant.code_ofCode (c : BitVec 3) : (Variant.ofCode c).code = c := by
  revert c
  decide

/-- Settles O12. -/
theorem variantCodes : Obligations.VariantCodes :=
  ⟨rfl, Variant.ofCode_code, Variant.code_ofCode⟩

end Sys2Proof

namespace Sys2Proof.Machine

/-! The assembler (30_encoding.md R63, R64, R66). -/

theorem literalAddr_of_lt {n v : Nat} (h : v < 2 ^ n) : literalAddr n v = some (Bits.ofNat n v) :=
  if_pos h

theorem literalAddr_of_le {n v : Nat} (h : 2 ^ n ≤ v) : literalAddr n v = none :=
  if_neg (Nat.not_lt.2 h)

/-- Settles O49: a literal that fits is the vector of its value, one that does not is refused, and each line is a map of
that. -/
theorem assemblerExpansion : Obligations.AssemblerExpansion := by
  refine fun n v r => ⟨fun h => ⟨Bits.ofNat n v, Bits.length_ofNat n v, Bits.val_ofNat h, ?fits⟩, fun h => ?refused⟩
  case fits => simp [expandLine, literalAddr_of_lt h]
  case refused => simp [expandLine, literalAddr_of_le h]

/-- Settles O4: the table's texts assemble to its words, its words decode to its instructions, and the three further
words are ILLEGAL, each evaluated. -/
theorem workedEncodings : Obligations.WorkedEncodings := by
  unfold Obligations.WorkedEncodings
  decide

/-! The step (42_operations.md R108). -/

/-- Settles O6. -/
theorem stepRunsDecodedInstruction : Obligations.StepRunsDecodedInstruction := by
  intro s w rest i hin hd
  rw [step_command hin, execute, State.setInput_cfg, hd]

theorem decode_of_decodeTableWord {nbits w : Nat} {i : Instr} (h : decodeTableWord nbits w = some i) :
    decode Config.initial.n (tableWord Config.initial.n nbits w) = .instr i := by
  unfold decodeTableWord at h
  split at h
  · next hd => rw [hd, Option.some_inj.1 h]
  · cases h

/-- Settles O5: the word presented is what the table's number stands for in the configuration of State.reset. -/
theorem tableWordRunsFirst : Obligations.TableWordRunsFirst := fun _ _ i h =>
  stepRunsDecodedInstruction _ _ _ i rfl (decode_of_decodeTableWord h)

theorem execute_of_length_ne {w : Bits} {s : State} (h : w.length ≠ s.cfg.n + 3) :
    execute w s = .fault .wordWidth := by
  rw [execute, decode, if_neg h]

/-- Settles O7. -/
theorem unpresentableWidthsStop : Obligations.UnpresentableWidthsStop :=
  ⟨fun s _ rest hin hl => (step_command hin).trans (execute_of_length_ne (s := s.setInput rest) hl),
    fun _ _ _ hl => ⟨if_neg hl, if_neg hl⟩⟩

/-- A run that begins with a reset goes on from what the reset leaves. -/
theorem run_of_reset (s : State) (c : CfgInput) (l : List Input) (k : Nat) :
    core.run (k + 1) (s.setInput (.reset c :: l)) = core.run k (acceptReset c l) :=
  run_succ_of_step (M := core) (step_reset (s := s.setInput (.reset c :: l)) rfl)

/-- Settles O13: after the first step both runs are in the same state. -/
theorem resetForgetsEverything : Obligations.ResetForgetsEverything := fun s s' c l =>
  (run_of_reset s c l l.length).trans (run_of_reset s' c l l.length).symm

/-! The worked index table (41_indexing.md R106). -/

/-- Settles O28: the indexer evaluated on the table's example. -/
theorem workedIndexTable : Obligations.WorkedIndexTable := by
  unfold Obligations.WorkedIndexTable
  decide

end Sys2Proof.Machine
end
